-- ==== Sys2Proof/Word.lean ====
section
/-!
DEFINITION. The bit containers of the frame-codec core.

A bit vector of length `n` (R4) and an integer of width `n` (R4) are the same `BitVec n`: position `i` of the
vector, `s.at(i)`, is `s.getMsbD i`, and the bit of significance `i`, `v[i]`, is `v.getLsbD i`. That is the
conversion of R5: position 0 is the most significant bit of the value. A bit vector whose length is not fixed
by its kind (a request, a response payload) is a `List Bool`, position 0 first.
-/

namespace Sys2Proof

/-- One byte of the wire frame (R32). -/
abbrev Byte := BitVec 8
/-- The data part of a codeword, and the scrambler's seed (R70, R90): 12 bits. -/
abbrev Data12 := BitVec 12
/-- A word of the (23,12) code, a mask, block B (R70, R91): 23 positions. -/
abbrev Word23 := BitVec 23
/-- A word of the (24,12) code, block A (R70): 24 positions. -/
abbrev Word24 := BitVec 24
/-- Block C, the unprotected part of the voice payload (R110): 25 positions. -/
abbrev Word25 := BitVec 25
/-- The voice payload (R110): 49 positions. -/
abbrev Voice49 := BitVec 49
/-- The wire frame (R32): 72 positions. -/
abbrev Frame72 := BitVec 72
/-- The carrier `Num` of the reference numerics, and its interchange form: an IEEE 754 binary32 word (R131). -/
abbrev Num32 := BitVec 32

/-- The nine index fields b0 to b8 of QuantizedVoiceIndices (R120). -/
structure Fields where
  b0 : BitVec 7
  b1 : BitVec 5
  b2 : BitVec 5
  b3 : BitVec 9
  b4 : BitVec 7
  b5 : BitVec 5
  b6 : BitVec 4
  b7 : BitVec 4
  b8 : BitVec 3
  deriving DecidableEq, Repr

end Sys2Proof
end

