-- ==== Sys2Proof/Machine/Bits.lean ====
section
/-!
DEFINITION. Bit-field operations: value and vector of a bit sequence (R5), writing one position of a vector,
population count and Hamming distance (R6), the byte view of the wire frame (R32).
-/

namespace Sys2Proof.Bits

/-- `val` (R5): the integer of a bit sequence, position 0 most significant. -/
def val (s : List Bool) : Nat :=
  s.foldl (fun acc b => 2 * acc + b.toNat) 0

/-- The bit vector of length `n` whose positions are those of `s` (R5). -/
def vec (n : Nat) (s : List Bool) : BitVec n :=
  BitVec.ofNat n (val s)

/-- The positions of a bit vector as a sequence, position 0 first (R4). -/
def ofVec {n : Nat} (x : BitVec n) : List Bool :=
  (List.range n).map x.getMsbD

/-- The field of length `n` that starts at position `off` of a payload (R51, R54). -/
def field (n off : Nat) (s : List Bool) : BitVec n :=
  vec n ((s.drop off).take n)

/-- `s.at(i .. i+len-1)` (R4), renumbered from 0. -/
def slice {n : Nat} (x : BitVec n) (i len : Nat) : BitVec len :=
  x.extractLsb' (n - i - len) len

/-- `s.at(i) <- b` (R4): one position of a vector written, the others kept. -/
def setAt {n : Nat} (x : BitVec n) (i : Nat) (b : Bool) : BitVec n :=
  (x &&& ~~~(BitVec.twoPow n (n - 1 - i))) ||| (if b then BitVec.twoPow n (n - 1 - i) else 0#n)

/-- `v[j] <- b` (R4): one bit of an integer written by significance, the others kept. -/
def setBit {n : Nat} (x : BitVec n) (j : Nat) (b : Bool) : BitVec n :=
  (x &&& ~~~(BitVec.twoPow n j)) ||| (if b then BitVec.twoPow n j else 0#n)

/-- The sum of the bits of significance below `n`. -/
def bitSum : Nat → Nat → Nat
  | 0, _ => 0
  | n + 1, v => bitSum n v + v / 2 ^ n % 2

/-- `wt` (R6): the number of 1 bits. -/
def wt {n : Nat} (x : BitVec n) : Nat :=
  bitSum n x.toNat

/-- `dH` (R6): the Hamming distance. -/
def dH {n : Nat} (a b : BitVec n) : Nat :=
  wt (a ^^^ b)

/-- `BYTES[0..8]` of a frame (R32): byte k holds positions 8k to 8k+7, the first most significant. -/
def frameBytes (f : Frame72) : List Byte :=
  (List.range 9).map fun k => slice f (8 * k) 8

/-- The frame of nine bytes (R32). -/
def ofFrameBytes (bytes : List Byte) : Frame72 :=
  vec 72 (bytes.flatMap ofVec)

end Sys2Proof.Bits
end

