-- ==== Sys2Proof/Config.lean ====
section
/-!
DEFINITION. The configuration of a core instance (R9): the numerics record, the predictor state's type, the
record of every parameter of `00_scope.md` section 4, and the constants without a body that stand for what the
spec leaves open. The instance of any configuration is in Machine/Instance.lean; the one value the machine of the
host's interface runs is `Config.chip` (Machine/Chip.lean).
-/

namespace Sys2Proof

/-- The numerics record `NUM` of R131, over a carrier `N`. Every function is total and depends on its operands
alone; the rules assume nothing else of it. -/
structure Numerics (N : Type) where
  /-- The width `W` of the interchange form. -/
  width : Nat
  ofBits : BitVec width → N
  finite : N → Bool
  ofInt : Int → N
  add : N → N → N
  sub : N → N → N
  mul : N → N → N
  div : N → N → N
  abs : N → N
  max : N → N → N
  log2 : N → N
  cos : N → N
  lt : N → N → Bool
  floor : N → Int
  pi : N
  sqrt2 : N

/-- SpectralPredictorState (R14): the three observers the core reads, and the rest, which it copies whole. -/
structure PredState (N : Type) where
  /-- `PRED.L`, the harmonic count of the previous frame: an integer (R14). -/
  l : Int
  /-- `PRED.GAMMA`, the previous frame's mean log-magnitude (R14). -/
  gamma : N
  /-- `PRED.ENV[0..L_MAX+1]`, index 0 first (R14). -/
  env : List N
  /-- Components only the external decoder reads and writes (R14). Their form is the model's, log 13. -/
  rest : List Byte
  deriving DecidableEq, Repr

/-- A VoiceModelFrame (R55, R132): pitch period, harmonic count, flags and magnitudes; entry `l - 1` of a list
belongs to harmonic `l`. -/
structure VoiceFrame (N : Type) where
  pitch : Nat
  l : Nat
  vuv : List Bool
  mag : List N
  deriving DecidableEq, Repr

/-- A pair (f, j) of `FIELD_MAP` (R120): bit `j` of field `f`. -/
abbrev FieldBit := Fin 9 × Nat

/-- The width W(f) of field f (R120). -/
def fieldWidth (f : Fin 9) : Nat := [7, 5, 5, 9, 7, 5, 4, 4, 3][f]

/-- The open parameters whose values R9 constrains and for which the spec states no value. -/
structure OpenTables (N : Type) where
  lMin : Nat
  /-- `PITCH_TABLE`; its length is `NP`. -/
  pitchTable : List (BitVec 7)
  harmCount : BitVec 7 → Int
  f0Table : BitVec 7 → N
  /-- `SUBBAND[L]`, the four sizes J1 to J4. -/
  subband : Nat → Vector Nat 4
  /-- `DECODE_PARAMS`, the canonical parameter decoder (R3, R148): reconstructed model and new state. -/
  decodeParams : Voice49 → PredState N → VoiceFrame N × PredState N

/-- The parameters that fix the length of a request (R51, R53): `PITCH_W`, `L_MAX` and `NW`. -/
structure Widths where
  pitchW : Nat
  lMax : Nat
  numW : Nat
  deriving DecidableEq, Repr

/-- One value of every parameter of `00_scope.md` section 4 (R9). -/
structure Params (N : Type) extends OpenTables N where
  num : Numerics N
  g23Poly : BitVec 12
  g24Even : Bool
  ilvA : Fin 24 → Fin 72
  ilvB : Fin 23 → Fin 72
  ilvC : Fin 25 → Fin 72
  fieldMap : Fin 49 → FieldBit
  lMax : Nat
  pitchW : Nat
  pitchIndex0 : Nat → Int
  pitchDir : Int
  silenceB0 : BitVec 7
  /-- `VUV_TABLE[n]`: position k is the flag of band k. -/
  vuvTable : Fin 17 → BitVec 8
  gainTable : Fin 32 → N
  prbaA : Fin 512 → Vector N 3
  prbaB : Fin 128 → Vector N 4
  hoc1 : Fin 32 → Vector N 4
  hoc2 : Fin 16 → Vector N 4
  hoc3 : Fin 16 → Vector N 4
  hoc4 : Fin 8 → Vector N 4
  offV : Nat → N
  offUV : Nat → N → N
  rho : N
  predReset : PredState N

/-- The widths of an instance. -/
def Params.widths {N : Type} (cfg : Params N) : Widths := ⟨cfg.pitchW, cfg.lMax, cfg.num.width⟩

namespace Config

/-- `PITCH_W` of the machine: the reference value 16 (PRESUMED, log 4). -/
abbrev pitchW : Nat := 16
/-- `L_MAX` of the machine: the reference value 56 (PRESUMED, log 4). -/
abbrev lMax : Nat := 56
/-- `NW = NUM.W` of the machine: the reference value 32 (PRESUMED, log 4). -/
abbrev numW : Nat := 32
/-- The widths of the machine (log 23). -/
abbrev widths : Widths := ⟨pitchW, lMax, numW⟩

/-! Constants without a body: nothing in Lean can evaluate them, so a proof holds for every value (logs 5, 7, 9). -/

/-- `NUM.log2` (R131: left as an uninterpreted function of its operand). -/
opaque log2 : Num32 → Num32
/-- `NUM.cos` (R131: left as an uninterpreted function of its operand). -/
opaque cos : Num32 → Num32
/-- `floor` of a value that is not finite (R171: not defined by the spec). -/
opaque floorNonFinite : Num32 → Int
/-- `PITCH_INDEX0`. -/
opaque pitchIndex0 : Nat → Int
/-- `SQ_SILENCE_B0`. -/
opaque silenceB0 : BitVec 7
/-- `VUV_TABLE`. -/
opaque vuvTable : Fin 17 → BitVec 8
/-- `GAIN_TABLE`. -/
opaque gainTable : Fin 32 → Num32
/-- `PRBA_A`. -/
opaque prbaA : Fin 512 → Vector Num32 3
/-- `PRBA_B`. -/
opaque prbaB : Fin 128 → Vector Num32 4
/-- `HOC_1`. -/
opaque hoc1 : Fin 32 → Vector Num32 4
/-- `HOC_2`. -/
opaque hoc2 : Fin 16 → Vector Num32 4
/-- `HOC_3`. -/
opaque hoc3 : Fin 16 → Vector Num32 4
/-- `HOC_4`. -/
opaque hoc4 : Fin 8 → Vector Num32 4
/-- `RHO`. -/
opaque rho : Num32
/-- Some element of a type that has one, with no body: the form the constrained open parameters take (log 10).
It is applied to the type of the well-formed tables, so that all a proof can know of them is the constraint. -/
opaque pick (α : Type) [Inhabited α] : α

end Config
end Sys2Proof
end

