-- ==== Sys2Proof/Machine/Numerics.lean ====
section
/-!
DEFINITION. The reference numerics (R131, log 5): IEEE 754 binary32 words with rounding to nearest, ties to
even, for `add`, `sub`, `mul`, `div` and `ofInt`; `log2` and `cos` stay without a body. A finite word stands for
the exact value `(-1)^neg * mant * 2^expo`; every operation computes exactly and rounds once. A result that is
not a number is the one word `nan` (log 6).
-/

namespace Sys2Proof.Machine.F32

/-- The sign bit. -/
def neg (x : Num32) : Bool := x.getLsbD 31

/-- The biased exponent field, 0..255. -/
def expField (x : Num32) : Nat := x.toNat / 2 ^ 23 % 2 ^ 8

/-- The fraction field, 23 bits. -/
def fracField (x : Num32) : Nat := x.toNat % 2 ^ 23

/-- Not an infinity and not a not-a-number word. -/
def finite (x : Num32) : Bool := expField x != 255

def isNan (x : Num32) : Bool := expField x == 255 && fracField x != 0

def isInf (x : Num32) : Bool := expField x == 255 && fracField x == 0

/-- The integer significand of a finite word, the hidden bit included for a normal one. -/
def mant (x : Num32) : Nat :=
  if expField x = 0 then fracField x else 2 ^ 23 + fracField x

/-- The exponent of the significand's unit. -/
def expo (x : Num32) : Int :=
  if expField x = 0 then -149 else (expField x : Int) - 150

/-- The signed integer significand. -/
def signedMant (x : Num32) : Int :=
  if neg x then -(mant x : Int) else mant x

/-- The word of a not-a-number result (log 6). -/
def nan : Num32 := 0x7FC00000#32

def signBit (n : Bool) : Num32 := if n then 0x80000000#32 else 0#32

def inf (n : Bool) : Num32 := signBit n ||| 0x7F800000#32

def zero (n : Bool) : Num32 := signBit n

/-- Round to nearest, ties to even: the quotient of `m` by `2^s`. -/
def roundShift (m s : Nat) : Nat :=
  let q := m / 2 ^ s
  let r := m % 2 ^ s
  if 2 ^ s < 2 * r ∨ (2 * r = 2 ^ s ∧ q % 2 = 1) then q + 1 else q

/-- The word nearest to `(-1)^n * m * 2^e`, ties to even; infinity on overflow, subnormal words included. -/
def round (n : Bool) (m : Nat) (e : Int) : Num32 :=
  if m = 0 then zero n
  else
    let shift : Int := max ((Nat.log2 m : Int) - 23) (-149 - e)
    let q : Nat := if 0 ≤ shift then roundShift m shift.toNat else m * 2 ^ (-shift).toNat
    let bits : Nat := (e + shift + 149).toNat * 2 ^ 23 + q
    if 0x7F800000 ≤ bits then inf n else signBit n ||| BitVec.ofNat 32 bits

/-- The nearest word to an integer. -/
def ofInt (i : Int) : Num32 := round (i < 0) i.natAbs 0

def negate (x : Num32) : Num32 := x ^^^ 0x80000000#32

def abs (x : Num32) : Num32 := x &&& 0x7FFFFFFF#32

def add (x y : Num32) : Num32 :=
  if isNan x || isNan y then nan
  else if isInf x then (if isInf y && neg x != neg y then nan else x)
  else if isInf y then y
  else
    let e := min (expo x) (expo y)
    let m : Int := signedMant x * 2 ^ (expo x - e).toNat + signedMant y * 2 ^ (expo y - e).toNat
    if m = 0 then zero (neg x && neg y) else round (m < 0) m.natAbs e

def sub (x y : Num32) : Num32 := add x (negate y)

def mul (x y : Num32) : Num32 :=
  let n := neg x != neg y
  if isNan x || isNan y then nan
  else if isInf x || isInf y then
    (if (finite x && mant x == 0) || (finite y && mant y == 0) then nan else inf n)
  else round n (mant x * mant y) (expo x + expo y)

/-- Division: the quotient is taken to at least 26 bits and a last bit that tells whether a rest remains. -/
def div (x y : Num32) : Num32 :=
  let n := neg x != neg y
  if isNan x || isNan y then nan
  else if isInf x then (if isInf y then nan else inf n)
  else if isInf y then zero n
  else if mant y = 0 then (if mant x = 0 then nan else inf n)
  else
    let m := mant x * 2 ^ 50
    let sticky := if m % mant y = 0 then 0 else 1
    round n (2 * (m / mant y) + sticky) (expo x - expo y - 51)

/-- The value order of two words that are numbers: sign and magnitude as one integer, both zeros equal. -/
def key (x : Num32) : Int :=
  if neg x then -((abs x).toNat : Int) else (abs x).toNat

/-- The quiet comparison "less than": false when either operand is not a number (R171). -/
def lt (x y : Num32) : Bool := !isNan x && !isNan y && decide (key x < key y)

/-- `max` of two numbers. -/
def max (x y : Num32) : Num32 := if lt x y then y else x

/-- The greatest integer not above a finite value; no stated value for the others (R171, log 7). -/
def floor (x : Num32) : Int :=
  if finite x then
    if 0 ≤ expo x then signedMant x * 2 ^ (expo x).toNat
    else signedMant x / 2 ^ (-expo x).toNat
  else Config.floorNonFinite x

/-- The reference value of `NUM` (R131). `pi` and `sqrt2` are the nearest words to the two constants. -/
def numerics : Numerics Num32 where
  width := 32
  ofBits := id
  finite := finite
  ofInt := ofInt
  add := add
  sub := sub
  mul := mul
  div := div
  abs := abs
  max := max
  log2 := Config.log2
  cos := Config.cos
  lt := lt
  floor := floor
  pi := 0x40490FDB#32
  sqrt2 := 0x3FB504F3#32

end Sys2Proof.Machine.F32
end

