-- ==== Sys2Proof/Machine/Chip.lean ====
section
/-!
DEFINITION. The configuration of the machine, `Config.chip`: the reference value of every parameter for which the
table of R9 gives one (logs 2, 3, 4, 5, 8, 11), a constant without a body for every other (logs 9, 10). The
constraints R9 puts on the open tables stand here too; the ones on the code and on the permutations are in
Machine/Constraints.lean.
-/

namespace Sys2Proof

/-- `Lq(idx) = HARM_COUNT(PITCH_TABLE[idx])` (R133). -/
def OpenTables.impliedCount {N : Type} (t : OpenTables N) (i : Nat) : Option Int :=
  t.pitchTable[i]?.map t.harmCount

/-- The predictor state R141 can read: `PRED.L` in 0..L_MAX and an envelope of indices 0..L_MAX+1 (R14, U9). -/
def PredState.InRange {N : Type} (lMax : Nat) (p : PredState N) : Prop :=
  0 ≤ p.l ∧ p.l ≤ lMax ∧ p.env.length = lMax + 2

/-- The three conditions of R133, and `NP >= 1` (R9). -/
structure PitchTablesWf {N : Type} (lMax : Nat) (dir : Int) (t : OpenTables N) : Prop where
  nonempty : t.pitchTable ≠ []
  direction : dir = 1 ∨ dir = -1
  monotonic : ∀ i j a b, i ≤ j → t.impliedCount i = some a → t.impliedCount j = some b → dir * a ≤ dir * b
  noGap : ∀ i j a b m, t.impliedCount i = some a → t.impliedCount j = some b → a ≤ m → m ≤ b →
    ∃ k, t.impliedCount k = some m
  bounded : ∀ i a, t.impliedCount i = some a → 1 ≤ a ∧ a ≤ lMax

/-- The constraints of R9 on the open tables. -/
structure OpenTables.Wf {N : Type} (num : Numerics N) (lMax : Nat) (dir : Int) (t : OpenTables N) : Prop where
  lMinRange : 1 ≤ t.lMin ∧ t.lMin ≤ lMax
  pitch : PitchTablesWf lMax dir t
  f0Positive : ∀ b, num.lt (num.ofInt 0) (t.f0Table b) = true
  /-- No count below `L_MIN` is in the pitch table: a frame below it takes the abort path (R58, R132; log 10). -/
  lMinLeast : ∀ i a, t.impliedCount i = some a → (t.lMin : Int) ≤ a
  subbandSum : ∀ L, 1 ≤ L → L ≤ lMax → (t.subband L).toList.sum = L
  decodeKeepsRange : ∀ v p, PredState.InRange lMax p → PredState.InRange lMax (t.decodeParams v p).2

namespace Config

/-- Some well-formed open tables: they only show that the constraints can be met. -/
def sampleTables : OpenTables Num32 where
  lMin := 1
  pitchTable := [0#7]
  harmCount := fun _ => 1
  f0Table := fun _ => Machine.F32.ofInt 1
  subband := fun L => #v[L, 0, 0, 0]
  decodeParams := fun _ p => (⟨0, 0, [], []⟩, p)

theorem sampleTables_impliedCount (i : Nat) (a : Int) (h : sampleTables.impliedCount i = some a) : a = 1 := by
  cases i <;> simp_all [OpenTables.impliedCount, sampleTables]

theorem sampleTables_f0Positive :
    Machine.F32.numerics.lt (Machine.F32.numerics.ofInt 0) (Machine.F32.ofInt 1) = true := by
  decide +kernel

theorem sampleTables_wf : sampleTables.Wf Machine.F32.numerics lMax 1 where
  lMinRange := by decide
  pitch :=
    { nonempty := by decide
      direction := .inl rfl
      monotonic := fun i j a b _ hi hj => by
        rw [sampleTables_impliedCount i a hi, sampleTables_impliedCount j b hj]
      noGap := fun i j a b m hi hj ham hmb => by
        have := sampleTables_impliedCount i a hi
        have := sampleTables_impliedCount j b hj
        exact ⟨0, by obtain rfl : m = 1 := by omega
                     rfl⟩
      bounded := fun i a h => by rw [sampleTables_impliedCount i a h]; decide }
  f0Positive := fun _ => sampleTables_f0Positive
  lMinLeast := fun i a h => by rw [sampleTables_impliedCount i a h]; decide
  subbandSum := fun L _ _ => by simp [sampleTables]
  decodeKeepsRange := fun _ _ h => h

/-- The machine's open tables: any that meet the constraints, and nothing else is known of them (log 10). -/
def openTables : { t : OpenTables Num32 // t.Wf Machine.F32.numerics lMax 1 } :=
  @pick _ ⟨⟨sampleTables, sampleTables_wf⟩⟩

/-- `ILV_A`, reference value (`42_interleaver.md` section 5, PRESUMED, log 3). -/
def ilvA : Vector (Fin 72) 24 :=
  #v[0, 4, 8, 12, 16, 20, 24, 28, 32, 36, 40, 44, 48, 52, 56, 60, 64, 68, 1, 5, 9, 13, 17, 21]

/-- `ILV_B`, reference value (PRESUMED, log 3). -/
def ilvB : Vector (Fin 72) 23 :=
  #v[25, 29, 33, 37, 41, 45, 49, 53, 57, 61, 65, 69, 2, 6, 10, 14, 18, 22, 26, 30, 34, 38, 42]

/-- `ILV_C`, reference value (PRESUMED, log 3). -/
def ilvC : Vector (Fin 72) 25 :=
  #v[46, 50, 54, 58, 62, 66, 70, 3, 7, 11, 15, 19, 23, 27, 31, 35, 39, 43, 47, 51, 55, 59, 63, 67, 71]

/-- `FIELD_MAP`, reference value (`44_voice_fields.md` section 5, PRESUMED, log 3). -/
def fieldMap : Vector FieldBit 49 :=
  #v[(0, 6), (0, 5), (0, 4), (0, 3), (1, 4), (1, 3), (1, 2), (1, 1), (2, 4), (2, 3), (2, 2), (2, 1),
    (3, 8), (3, 7), (3, 6), (3, 5), (3, 4), (3, 3), (3, 2), (3, 1), (4, 6), (4, 5), (4, 4), (4, 3),
    (5, 4), (5, 3), (5, 2), (5, 1), (6, 3), (6, 2), (6, 1), (7, 3), (7, 2), (7, 1), (8, 2), (1, 0),
    (2, 0), (0, 2), (0, 1), (0, 0), (3, 0), (4, 2), (4, 1), (4, 0), (5, 0), (6, 0), (7, 0), (8, 1),
    (8, 0)]

/-- One half in the reference numerics. -/
def half : Num32 := 0x3F000000#32

/-- `OFF_V(L) = 0.5 * log2(L)`, reference form (R137, G4, PRESUMED, log 8). -/
def offV (L : Nat) : Num32 := Machine.F32.mul half (log2 (Machine.F32.ofInt L))

/-- `OFF_UV(L, f0) = 0.5 * log2(L * f0 * 2 * pi) + 2.289`, reference form (R137, G4, PRESUMED, log 8). -/
def offUV (L : Nat) (f0 : Num32) : Num32 :=
  let arg := Machine.F32.mul (Machine.F32.mul (Machine.F32.mul (Machine.F32.ofInt L) f0) (Machine.F32.ofInt 2))
    Machine.F32.numerics.pi
  Machine.F32.add (Machine.F32.mul half (log2 arg)) 0x40127EFA#32

/-- `PRED_RESET`, reference value: L = 30, gamma = 0, envelope all 0 (R9, G6, PRESUMED, log 11). -/
def predReset : PredState Num32 where
  l := 30
  gamma := 0#32
  env := List.replicate (lMax + 2) 0#32
  rest := []

/-- The configuration the machine runs (R9). -/
def chip : Params Num32 where
  toOpenTables := openTables.val
  num := Machine.F32.numerics
  g23Poly := 0xC75#12
  g24Even := true
  ilvA := fun i => ilvA[i]
  ilvB := fun i => ilvB[i]
  ilvC := fun i => ilvC[i]
  fieldMap := fun p => fieldMap[p]
  lMax := lMax
  pitchW := pitchW
  pitchIndex0 := pitchIndex0
  pitchDir := 1
  silenceB0 := silenceB0
  vuvTable := vuvTable
  gainTable := gainTable
  prbaA := prbaA
  prbaB := prbaB
  hoc1 := hoc1
  hoc2 := hoc2
  hoc3 := hoc3
  hoc4 := hoc4
  offV := offV
  offUV := offUV
  rho := rho
  predReset := predReset

end Config
end Sys2Proof
end

