-- ==== Sys2Proof/Machine/State.lean ====
section
/-!
DEFINITION. The state of one core instance of any configuration, the machine's state, the faults and the refusal.
-/

namespace Sys2Proof.Machine

/-- A response (R52): status OK with a result payload (position 0 first), or status MISUSE without one. -/
inductive Response where
  | ok (payload : List Bool)
  | misuse
  deriving DecidableEq, Repr

/-- What the host does to the core, in the order it does it (logs 1, 17). -/
inductive HostInput where
  /-- A request, of any length (R51). -/
  | request (bits : List Bool)
  /-- Power-on reset between two commands (R200). -/
  | powerOnReset
  /-- A request whose command a power-on reset ends before its response (R202). -/
  | requestCutByReset (bits : List Bool)
  deriving DecidableEq, Repr

/-- The state of an instance over any numerics: the pair (`PRED`, `GADJ`) of R10, and the model's own record of the
host's side (log 1). -/
structure StateOf (N : Type) where
  /-- `PRED` (R14). -/
  pred : PredState N
  /-- `GADJ` (R17). -/
  gadj : N
  /-- The host inputs the core has not taken yet, oldest first (R12, R40). -/
  inputs : List HostInput
  /-- The responses delivered so far, oldest first (R52). -/
  responses : List Response
  deriving DecidableEq, Repr

/-- The state of the machine: that of an instance over the reference numerics, with the four fields above. -/
structure State extends StateOf Num32
  deriving DecidableEq, Repr

/-- The machine stops. Both reasons lie outside the premises the spec asks of a model; logs 10 and 15. -/
inductive Fault where
  /-- Stage 5 of SQENC found `PRED.L` below 0 or above L_MAX (U9). Safe: the machine stops where the spec's
  premise fails. -/
  | predictorRange
  /-- Stage 5 of SQENC would read the envelope outside 0..L_MAX+1 (R141). Safe: as above. -/
  | envelopeIndex
  deriving DecidableEq, Repr

/-- No meaning for the instruction. Every command has one, so no arm of `exec` raises it. Safe. -/
inductive Refusal where
  /-- Raised by an arm of `exec` that has no meaning yet. Safe. -/
  | notModelled (mnemonic : String)
  deriving DecidableEq, Repr

/-- An instance after power-on reset (R19, R20, R200): `PRED = PRED_RESET`, `GADJ = 0`, nothing asked and nothing
answered. -/
def StateOf.reset {N : Type} (cfg : Params N) : StateOf N where
  pred := cfg.predReset
  gadj := cfg.num.ofInt 0
  inputs := []
  responses := []

/-- The machine after power-on reset. -/
def State.reset : State := ⟨StateOf.reset Config.chip⟩

end Sys2Proof.Machine
end

