-- ==== Sys2Proof/Machine/Flags.lean ====
section
/-!
DEFINITION. The core has no status flags (R13). What takes their place are the response status (R52) and the
informational counts CNT and ERR, result fields of the response that carries them (R13, R53).
-/

namespace Sys2Proof.Machine

/-- `STATUS` (R52): 0x00 OK, 0x01 MISUSE. -/
def Response.status : Response → Byte
  | .ok _ => 0x00#8
  | .misuse => 0x01#8

/-- The response on the wire: the status, then the result payload, which only an OK response has (R52). -/
def Response.bits : Response → List Bool
  | .ok payload => Bits.ofVec (Response.ok payload).status ++ payload
  | .misuse => Bits.ofVec Response.misuse.status

/-- `CNT` of G24DEC: 3 bits for 0..4 (R53, R76). -/
def countField24 (cnt : Nat) : BitVec 3 := BitVec.ofNat 3 cnt

/-- `CNT` of G23DEC: 2 bits for 0..3 (R53, R75). -/
def countField23 (cnt : Nat) : BitVec 2 := BitVec.ofNat 2 cnt

/-- `ERR` of FECUNPK: 3 bits for 0..7, the plain sum of the two counts (R53, R112). -/
def errField (errA errB : Nat) : BitVec 3 := BitVec.ofNat 3 (errA + errB)

end Sys2Proof.Machine
end

