-- ==== Sys2Proof/Machine/Ops.lean ====
section
/-!
DEFINITION. The operations over the state of an instance. A response is delivered at the end of the list; the MISUSE
refusal is the one exception of the core (R181, R182) and there is no return from it (R188, R189).
-/

namespace Sys2Proof.Machine

variable {N : Type}

/-- The outcomes of an instance. -/
abbrev ResultOf (N : Type) := Host.Outcome (StateOf N) Fault Refusal

/-- The outcomes of the machine. -/
abbrev Result := Host.Outcome State Fault Refusal

/-- An outcome of the instance the machine is, as an outcome of the machine. -/
def onMachine : ResultOf Num32 → Result
  | .next s => .next ⟨s⟩
  | .fault f => .fault f
  | .refused r => .refused r

/-- A response delivered to the host (R50, R52). -/
def StateOf.deliver (s : StateOf N) (r : Response) : StateOf N :=
  { s with responses := s.responses ++ [r] }

/-- `respond(fields)`: the command completes with status OK and the result payload (R52). -/
def StateOf.respond (s : StateOf N) (payload : List Bool) : StateOf N :=
  s.deliver (.ok payload)

/-- `raise Misuse` (R182): a MISUSE response; `PRED` and `GADJ` keep their values. -/
def StateOf.misuse (s : StateOf N) : StateOf N :=
  s.deliver .misuse

/-- `PRED` replaced whole (R15). -/
def StateOf.setPred (s : StateOf N) (p : PredState N) : StateOf N :=
  { s with pred := p }

/-- `GADJ` written (R17). -/
def StateOf.setGadj (s : StateOf N) (g : N) : StateOf N :=
  { s with gadj := g }

/-- Power-on reset (R200): `PRED = PRED_RESET` and `GADJ = 0`, and no response. The host's own record of its
remaining inputs and of the responses it has is not the core's to clear (log 17). -/
def StateOf.powerOn (cfg : Params N) (s : StateOf N) : StateOf N :=
  (s.setPred cfg.predReset).setGadj (cfg.num.ofInt 0)

/-- The core takes its next host input (R40). -/
def StateOf.takeInput (s : StateOf N) (rest : List HostInput) : StateOf N :=
  { s with inputs := rest }

end Sys2Proof.Machine
end

