-- ==== Sys2Proof/Machine/Search.lean ====
section
/-!
DEFINITION. `argmin_first` (R7) and the ascending sum (R8): the two loops every search and transform uses.
-/

namespace Sys2Proof.Machine

/-- The scan of R7 over the last `n` indices of `0..hi`: the best so far is replaced only on a strict improvement. -/
def argminLoop {β : Type} (lt : β → β → Bool) {hi : Nat} (f : Fin (hi + 1) → β) : Nat → Fin (hi + 1) → Fin (hi + 1)
  | 0, best => best
  | n + 1, best =>
    let i : Fin (hi + 1) := ⟨hi - n, Nat.lt_succ_of_le (Nat.sub_le hi n)⟩
    if lt (f i) (f best) then argminLoop lt f n i else argminLoop lt f n best

/-- `argmin_first(i in 0..hi, f(i))` (R7): a full scan in ascending index. -/
def argminFirst {β : Type} (lt : β → β → Bool) {hi : Nat} (f : Fin (hi + 1) → β) : Fin (hi + 1) :=
  argminLoop lt f hi 0

/-- A sum in ascending index order, starting from the first term (R8, D37); an empty sum is 0 (R136). -/
def sumAsc {N : Type} (num : Numerics N) : List N → N
  | [] => num.ofInt 0
  | x :: xs => xs.foldl num.add x

end Sys2Proof.Machine
end

