-- ==== Sys2Proof/Machine/Ecc.lean ====
section
/-!
DEFINITION. ErrorCorrectingCode (`40_ecc.md`): G23ENC, G24ENC, G23DEC, G24DEC.
-/

namespace Sys2Proof.Machine

variable {N : Type}

/-- The loop of R71: `r` reduced by `g` at bits `n + 10` down to 11; `r / 2^i % 2` is `r[i]`. -/
def polyRem (g : Nat) : Nat → Nat → Nat
  | 0, r => r
  | n + 1, r => polyRem g n (if r / 2 ^ (n + 11) % 2 = 1 then r ^^^ (g * 2 ^ n) else r)

/-- `par11(d)` (R71): the remainder of d(x) * x^11 by g(x) over GF(2). -/
def par11 (cfg : Params N) (d : Data12) : BitVec 11 :=
  BitVec.ofNat 11 (polyRem cfg.g23Poly.toNat 12 (d.toNat * 2 ^ 11))

/-- The (23,12) codeword of `d`: data in positions 0 to 11, check bits after them (R70). -/
def enc23 (cfg : Params N) (d : Data12) : Word23 :=
  d ++ par11 cfg d

/-- `p24(c)` (R72): the overall parity bit. -/
def p24 (cfg : Params N) (c : Word23) : Nat :=
  if cfg.g24Even then Bits.wt c % 2 else 1 - Bits.wt c % 2

/-- The (24,12) codeword of `d`: the (23,12) codeword and one overall parity bit (R70, R74). -/
def enc24 (cfg : Params N) (d : Data12) : Word24 :=
  enc23 cfg d ++ BitVec.ofNat 1 (p24 cfg (enc23 cfg d))

/-- Comparison of two distances. -/
def natLt (a b : Nat) : Bool := decide (a < b)

/-- The search of R75: nearest codeword, smallest data value first, and the distance to it. -/
def dec23 (cfg : Params N) (r : Word23) : Data12 × Nat :=
  let d := BitVec.ofFin (w := 12) (argminFirst natLt fun i => Bits.dH r (enc23 cfg (BitVec.ofFin i)))
  (d, Bits.dH r (enc23 cfg d))

/-- The search of R76, all 24 positions counted. -/
def dec24 (cfg : Params N) (r : Word24) : Data12 × Nat :=
  let d := BitVec.ofFin (w := 12) (argminFirst natLt fun i => Bits.dH r (enc24 cfg (BitVec.ofFin i)))
  (d, Bits.dH r (enc24 cfg d))

/-- G23ENC (R73). -/
def runG23enc (cfg : Params N) (d : Data12) (s : StateOf N) : ResultOf N :=
  .next (s.respond (Bits.ofVec (enc23 cfg d)))

/-- G23ENC on the machine. -/
def execG23enc (d : Data12) (s : State) : Result :=
  onMachine (runG23enc Config.chip d s.toStateOf)

/-- G24ENC (R74). -/
def runG24enc (cfg : Params N) (d : Data12) (s : StateOf N) : ResultOf N :=
  .next (s.respond (Bits.ofVec (enc24 cfg d)))

/-- G24ENC on the machine. -/
def execG24enc (d : Data12) (s : State) : Result :=
  onMachine (runG24enc Config.chip d s.toStateOf)

/-- G23DEC (R75). -/
def runG23dec (cfg : Params N) (cw : Word23) (s : StateOf N) : ResultOf N :=
  let r := dec23 cfg cw
  .next (s.respond (Bits.ofVec r.1 ++ Bits.ofVec (countField23 r.2)))

/-- G23DEC on the machine. -/
def execG23dec (cw : Word23) (s : State) : Result :=
  onMachine (runG23dec Config.chip cw s.toStateOf)

/-- G24DEC (R76). -/
def runG24dec (cfg : Params N) (cw : Word24) (s : StateOf N) : ResultOf N :=
  let r := dec24 cfg cw
  .next (s.respond (Bits.ofVec r.1 ++ Bits.ofVec (countField24 r.2)))

/-- G24DEC on the machine. -/
def execG24dec (cw : Word24) (s : State) : Result :=
  onMachine (runG24dec Config.chip cw s.toStateOf)

end Sys2Proof.Machine
end

