-- ==== Sys2Proof/Machine/Interleaver.lean ====
section
/-!
DEFINITION. FrameInterleaver (`42_interleaver.md`): ILVPACK, ILVUNPK.
-/

namespace Sys2Proof.Machine

variable {N : Type}

/-- One loop of R101: every position of block `x` written to its mapped frame position. -/
def scatter {n : Nat} (table : Fin n → Fin 72) (x : BitVec n) (f : Frame72) : Frame72 :=
  (List.finRange n).foldl (fun f i => Bits.setAt f (table i) (x.getMsbD i)) f

/-- One loop of R102: every position of a block read from its mapped frame position. -/
def gather {n : Nat} (table : Fin n → Fin 72) (f : Frame72) : BitVec n :=
  Bits.vec n ((List.finRange n).map fun i => f.getMsbD (table i))

/-- `ilvpack(A, B, C)` (R101). -/
def ilvPack (cfg : Params N) (a : Word24) (b : Word23) (c : Word25) : Frame72 :=
  scatter cfg.ilvC c (scatter cfg.ilvB b (scatter cfg.ilvA a 0#72))

/-- `ilvunpack(F)` (R102). -/
def ilvUnpack (cfg : Params N) (f : Frame72) : Word24 × Word23 × Word25 :=
  (gather cfg.ilvA f, gather cfg.ilvB f, gather cfg.ilvC f)

/-- ILVPACK (R101). -/
def runIlvpack (cfg : Params N) (a : Word24) (b : Word23) (c : Word25) (s : StateOf N) : ResultOf N :=
  .next (s.respond (Bits.ofVec (ilvPack cfg a b c)))

/-- ILVPACK on the machine. -/
def execIlvpack (a : Word24) (b : Word23) (c : Word25) (s : State) : Result :=
  onMachine (runIlvpack Config.chip a b c s.toStateOf)

/-- ILVUNPK (R102). -/
def runIlvunpk (cfg : Params N) (f : Frame72) (s : StateOf N) : ResultOf N :=
  let r := ilvUnpack cfg f
  .next (s.respond (Bits.ofVec r.1 ++ Bits.ofVec r.2.1 ++ Bits.ofVec r.2.2))

/-- ILVUNPK on the machine. -/
def execIlvunpk (f : Frame72) (s : State) : Result :=
  onMachine (runIlvunpk Config.chip f s.toStateOf)

end Sys2Proof.Machine
end

