-- ==== Sys2Proof/Machine/Scrambler.lean ====
section
/-!
DEFINITION. Scrambler (`41_scrambler.md`): SCRMASK. The recurrence of R90 is the only mask generator (R93).
-/

namespace Sys2Proof.Machine

/-- `p(i)` (R90): `p0 = 16 * SEED`, then multiplier 173 and addend 13849 modulo 65536. -/
def scrIterate (seed : Data12) : Nat → Nat
  | 0 => 16 * seed.toNat
  | i + 1 => (173 * scrIterate seed i + 13849) % 65536

/-- `mask(seed)` (R91): bit 15 of iterate i is mask position i - 1, for i = 1..23. -/
def scrMask (seed : Data12) : Word23 :=
  Bits.vec 23 ((List.range 23).map fun j => decide (32768 ≤ scrIterate seed (j + 1)))

/-- SCRMASK (R91): no parameter enters it. -/
def runScrmask {N : Type} (seed : Data12) (s : StateOf N) : ResultOf N :=
  .next (s.respond (Bits.ofVec (scrMask seed)))

/-- SCRMASK on the machine. -/
def execScrmask (seed : Data12) (s : State) : Result :=
  onMachine (runScrmask seed s.toStateOf)

end Sys2Proof.Machine
end

