-- ==== Sys2Proof/Machine/FecFrame.lean ====
section
/-!
DEFINITION. FecFrameCodec (`43_fec_frame_codec.md`): FECPACK, FECUNPK.
-/

namespace Sys2Proof.Machine

variable {N : Type}

/-- U0 = V.at(0..11) (R110). -/
def voiceU0 (v : Voice49) : Data12 := Bits.slice v 0 12

/-- U1 = V.at(12..23) (R110). -/
def voiceU1 (v : Voice49) : Data12 := Bits.slice v 12 12

/-- U2 = V.at(24..48) (R110). -/
def voiceU2 (v : Voice49) : Word25 := Bits.slice v 24 25

/-- The voice payload of its three parts (R112). -/
def joinVoice (u0 u1 : Data12) (u2 : Word25) : Voice49 := u0 ++ u1 ++ u2

/-- `fecpack(V)` (R111): A protects U0, B protects U1 and is scrambled with the mask of U0, C is U2. -/
def fecPack (cfg : Params N) (v : Voice49) : Frame72 :=
  let u0 := voiceU0 v
  ilvPack cfg (enc24 cfg u0) (enc23 cfg (voiceU1 v) ^^^ scrMask u0) (voiceU2 v)

/-- `fecunpack(F)` (R112): the voice payload and the two counts errA and errB; the mask is that of the corrected U0. -/
def fecUnpack (cfg : Params N) (f : Frame72) : Voice49 × Nat × Nat :=
  let (a, b, c) := ilvUnpack cfg f
  let (u0, errA) := dec24 cfg a
  let (u1, errB) := dec23 cfg (b ^^^ scrMask u0)
  (joinVoice u0 u1 c, errA, errB)

/-- FECPACK (R111). -/
def runFecpack (cfg : Params N) (v : Voice49) (s : StateOf N) : ResultOf N :=
  .next (s.respond (Bits.ofVec (fecPack cfg v)))

/-- FECPACK on the machine. -/
def execFecpack (v : Voice49) (s : State) : Result :=
  onMachine (runFecpack Config.chip v s.toStateOf)

/-- FECUNPK (R112); no frame is refused (R113). -/
def runFecunpk (cfg : Params N) (f : Frame72) (s : StateOf N) : ResultOf N :=
  let r := fecUnpack cfg f
  .next (s.respond (Bits.ofVec r.1 ++ Bits.ofVec (errField r.2.1 r.2.2)))

/-- FECUNPK on the machine. -/
def execFecunpk (f : Frame72) (s : State) : Result :=
  onMachine (runFecunpk Config.chip f s.toStateOf)

end Sys2Proof.Machine
end

