-- ==== Sys2Proof/Machine/Operands.lean ====
section
/-!
DEFINITION. Operand forms. Bit-vector operands are taken position for position and integer operands as `val` (R54),
which is what `BitVec` already is; what remains is the VMF format (R55) and the operand checks M3 to M5 (R181).
-/

namespace Sys2Proof.Machine

variable {N : Type}

/-- `ofBits` (R131): the Num of an interchange form, given as the integer of its bits. -/
def numOfBits (cfg : Params N) (x : Nat) : N := cfg.num.ofBits (BitVec.ofNat cfg.num.width x)

/-- The VoiceModelFrame of a VMF payload, its magnitudes read from the interchange form (R55). -/
def voiceFrame (cfg : Params N) (pitch : Nat) (l : BitVec 8) (vuv : List Bool) (mag : List Nat) : VoiceFrame N where
  pitch := pitch
  l := l.toNat
  vuv := vuv
  mag := mag.map (numOfBits cfg)

/-- Harmonics 1..L of a frame, as pairs of flag and magnitude; the entries above L are never read (R55). -/
def harmonics (frame : VoiceFrame N) : List (Bool × N) :=
  (frame.vuv.zip frame.mag).take frame.l

/-- The checks of R132 after the length: L <= L_MAX (M3), then every MAG[l] with l in 1..L finite (M4). -/
def frameAccepted (cfg : Params N) (frame : VoiceFrame N) : Bool :=
  decide (frame.l ≤ cfg.lMax) && (frame.mag.take frame.l).all cfg.num.finite

/-- The check of SQGAIN: DB is finite (M5). -/
def gainAccepted (cfg : Params N) (db : N) : Bool :=
  cfg.num.finite db

end Sys2Proof.Machine
end

