-- ==== Sys2Proof/Syntax.lean ====
section
/-!
DEFINITION. The commands (R53): one constructor per row of `spec/opcode_table.json`, with the operand fields
of its format. A field whose width depends on a parameter (PITCH, MAG, DB) is the integer `val` of its bits, so that
one syntax serves every instance; the width is a condition of WellFormed.lean (log 23).
-/

namespace Sys2Proof

/-- A command with its operands (R50, R53). -/
inductive Instr where
  /-- 0x10, format D12 (R74). -/
  | g24enc (d : Data12)
  /-- 0x11, format C24 (R76). -/
  | g24dec (cw : Word24)
  /-- 0x12, format D12 (R73). -/
  | g23enc (d : Data12)
  /-- 0x13, format C23 (R75). -/
  | g23dec (cw : Word23)
  /-- 0x20, format D12 (R91). -/
  | scrmask (seed : Data12)
  /-- 0x30, format ABC (R101). -/
  | ilvpack (a : Word24) (b : Word23) (c : Word25)
  /-- 0x31, format F72 (R102). -/
  | ilvunpk (f : Frame72)
  /-- 0x40, format V49 (R111). -/
  | fecpack (v : Voice49)
  /-- 0x41, format F72 (R112). -/
  | fecunpk (f : Frame72)
  /-- 0x50, format B9 (R121). -/
  | fldpack (b : Fields)
  /-- 0x51, format V49 (R122). -/
  | fldunpk (v : Voice49)
  /-- 0x60, format VMF (R55, R150): `vuv` and `mag` hold `L_MAX` entries, harmonic 1 first. -/
  | sqenc (pitch : Nat) (l : BitVec 8) (vuv : List Bool) (mag : List Nat)
  /-- 0x61, format N (R161). -/
  | sqrst
  /-- 0x62, format G (R56, R160). -/
  | sqgain (db : Nat)
  deriving DecidableEq, Repr

end Sys2Proof
end

