-- ==== Sys2Proof/WellFormed.lean ====
section
/-!
DEFINITION. Which commands have an encoding in an instance. An operand field of fixed width is a bit vector of that
width, so it has no ill-formed value (R58); PITCH, MAG and DB must fit the instance's widths, and the two arrays of the
VMF format must have exactly `L_MAX` entries (R55).
-/

namespace Sys2Proof

/-- The operand shapes of R53 and R55. -/
def Instr.wf (w : Widths) : Instr → Bool
  | .sqenc pitch _ vuv mag =>
    decide (pitch < 2 ^ w.pitchW) && vuv.length == w.lMax && mag.length == w.lMax &&
      mag.all fun m => decide (m < 2 ^ w.numW)
  | .sqgain db => decide (db < 2 ^ w.numW)
  | .g24enc _ | .g24dec _ | .g23enc _ | .g23dec _ | .scrmask _ => true
  | .ilvpack _ _ _ | .ilvunpk _ | .fecpack _ | .fecunpk _ => true
  | .fldpack _ | .fldunpk _ | .sqrst => true

end Sys2Proof
end

