-- ==== Sys2Proof/Decode.lean ====
section
/-!
DEFINITION. Requests (R51): the decoder, total on every bit sequence and rejecting by name, and the encoder,
both written from the opcode map of R53.
-/

namespace Sys2Proof

/-- The 14 listed opcodes (R53). -/
inductive Opcode where
  | g24enc | g24dec | g23enc | g23dec
  | scrmask
  | ilvpack | ilvunpk
  | fecpack | fecunpk
  | fldpack | fldunpk
  | sqenc | sqrst | sqgain
  deriving DecidableEq, Repr

namespace Opcode

/-- The opcode byte: high nibble the unit, low nibble the function (R53). -/
def byte : Opcode → Byte
  | g24enc => 0x10#8
  | g24dec => 0x11#8
  | g23enc => 0x12#8
  | g23dec => 0x13#8
  | scrmask => 0x20#8
  | ilvpack => 0x30#8
  | ilvunpk => 0x31#8
  | fecpack => 0x40#8
  | fecunpk => 0x41#8
  | fldpack => 0x50#8
  | fldunpk => 0x51#8
  | sqenc => 0x60#8
  | sqrst => 0x61#8
  | sqgain => 0x62#8

/-- The payload length in bits (R53), in an instance of the given widths. -/
def payloadLength (w : Widths) : Opcode → Nat
  | g24enc | g23enc | scrmask => 12
  | g24dec => 24
  | g23dec => 23
  | ilvpack | ilvunpk | fecunpk => 72
  | fecpack | fldpack | fldunpk => 49
  | sqenc => w.pitchW + 8 + w.lMax + w.lMax * w.numW
  | sqrst => 0
  | sqgain => w.numW

/-- The result payload length in bits of an OK response (R53). -/
def resultLength : Opcode → Nat
  | g24enc => 24
  | g24dec => 12 + 3
  | g23enc => 23
  | g23dec => 12 + 2
  | scrmask => 23
  | ilvpack => 72
  | ilvunpk => 24 + 23 + 25
  | fecpack => 72
  | fecunpk => 49 + 3
  | fldpack | fldunpk => 49
  | sqenc => 49 + 49
  | sqrst | sqgain => 0

/-- Every listed opcode, in the order of R53. -/
def all : List Opcode :=
  [g24enc, g24dec, g23enc, g23dec, scrmask, ilvpack, ilvunpk, fecpack, fecunpk, fldpack, fldunpk,
    sqenc, sqrst, sqgain]

/-- The opcode of a byte value; `none` for the 242 reserved values (R57). -/
def ofByte (b : Byte) : Option Opcode :=
  all.find? fun o => o.byte == b

end Opcode

/-- The opcode of a command (R53). -/
def Instr.opcode : Instr → Opcode
  | .g24enc _ => .g24enc
  | .g24dec _ => .g24dec
  | .g23enc _ => .g23enc
  | .g23dec _ => .g23dec
  | .scrmask _ => .scrmask
  | .ilvpack _ _ _ => .ilvpack
  | .ilvunpk _ => .ilvunpk
  | .fecpack _ => .fecpack
  | .fecunpk _ => .fecunpk
  | .fldpack _ => .fldpack
  | .fldunpk _ => .fldunpk
  | .sqenc _ _ _ _ => .sqenc
  | .sqrst => .sqrst
  | .sqgain _ => .sqgain

/-- Why a request is no command: the causes M1 and M2 of R181. -/
inductive DecodeError where
  /-- M1: the opcode is not in R53. -/
  | reservedOpcode (op : Byte)
  /-- M2: the length is not 8 plus the opcode's payload length, or there is no whole opcode byte (log 16). -/
  | wrongLength
  deriving DecidableEq, Repr

/-- The nine fields of a 49-bit B9 payload or result, b0 first, each most significant bit first (R53, R54). -/
def decodeFields (p : List Bool) : Fields where
  b0 := Bits.field 7 0 p
  b1 := Bits.field 5 7 p
  b2 := Bits.field 5 12 p
  b3 := Bits.field 9 17 p
  b4 := Bits.field 7 26 p
  b5 := Bits.field 5 33 p
  b6 := Bits.field 4 38 p
  b7 := Bits.field 4 42 p
  b8 := Bits.field 3 46 p

/-- `MAG` of a VMF payload: `n` numbers of `numW` bits in interchange form, harmonic 1 first (R55). -/
def decodeMag (numW : Nat) : Nat → List Bool → List Nat
  | 0, _ => []
  | n + 1, p => Bits.val (p.take numW) :: decodeMag numW n (p.drop numW)

/-- The operand fields of an opcode's payload, in the order of R53. -/
def decodePayload (w : Widths) (o : Opcode) (p : List Bool) : Instr :=
  match o with
  | .g24enc => .g24enc (Bits.field 12 0 p)
  | .g24dec => .g24dec (Bits.field 24 0 p)
  | .g23enc => .g23enc (Bits.field 12 0 p)
  | .g23dec => .g23dec (Bits.field 23 0 p)
  | .scrmask => .scrmask (Bits.field 12 0 p)
  | .ilvpack => .ilvpack (Bits.field 24 0 p) (Bits.field 23 24 p) (Bits.field 25 47 p)
  | .ilvunpk => .ilvunpk (Bits.field 72 0 p)
  | .fecpack => .fecpack (Bits.field 49 0 p)
  | .fecunpk => .fecunpk (Bits.field 72 0 p)
  | .fldpack => .fldpack (decodeFields p)
  | .fldunpk => .fldunpk (Bits.field 49 0 p)
  | .sqenc =>
    .sqenc (Bits.val (p.take w.pitchW)) (Bits.field 8 w.pitchW p)
      ((p.drop (w.pitchW + 8)).take w.lMax)
      (decodeMag w.numW w.lMax (p.drop (w.pitchW + 8 + w.lMax)))
  | .sqrst => .sqrst
  | .sqgain => .sqgain (Bits.val (p.take w.numW))

/-- The decoder (R51, R57): opcode first (M1), then the length (M2), as R187 orders the checks. -/
def decode (w : Widths) (req : List Bool) : Except DecodeError Instr :=
  if req.length < 8 then .error .wrongLength
  else
    match Opcode.ofByte (Bits.field 8 0 req) with
    | none => .error (.reservedOpcode (Bits.field 8 0 req))
    | some o =>
      if req.length = 8 + o.payloadLength w then .ok (decodePayload w o (req.drop 8))
      else .error .wrongLength

/-- The nine fields one after another, b0 first (R53). -/
def encodeFields (b : Fields) : List Bool :=
  Bits.ofVec b.b0 ++ Bits.ofVec b.b1 ++ Bits.ofVec b.b2 ++ Bits.ofVec b.b3 ++ Bits.ofVec b.b4 ++
    Bits.ofVec b.b5 ++ Bits.ofVec b.b6 ++ Bits.ofVec b.b7 ++ Bits.ofVec b.b8

/-- The payload of a command: its operand fields in the order of R53, each most significant bit first (R51). -/
def encodePayload (w : Widths) : Instr → List Bool
  | .g24enc d => Bits.ofVec d
  | .g24dec cw => Bits.ofVec cw
  | .g23enc d => Bits.ofVec d
  | .g23dec cw => Bits.ofVec cw
  | .scrmask seed => Bits.ofVec seed
  | .ilvpack a b c => Bits.ofVec a ++ Bits.ofVec b ++ Bits.ofVec c
  | .ilvunpk f => Bits.ofVec f
  | .fecpack v => Bits.ofVec v
  | .fecunpk f => Bits.ofVec f
  | .fldpack b => encodeFields b
  | .fldunpk v => Bits.ofVec v
  | .sqenc pitch l vuv mag =>
    Bits.ofVec (BitVec.ofNat w.pitchW pitch) ++ Bits.ofVec l ++ vuv ++
      mag.flatMap fun m => Bits.ofVec (BitVec.ofNat w.numW m)
  | .sqrst => []
  | .sqgain db => Bits.ofVec (BitVec.ofNat w.numW db)

/-- The request of a command (R51). -/
def encode (w : Widths) (i : Instr) : List Bool :=
  Bits.ofVec i.opcode.byte ++ encodePayload w i

/-- The request that an opcode-table number stands for. The table reads the whole request as one integer,
position 0 most significant; the number of bits a row has may come rounded up to whole bytes, or be that of a
first part whose missing rest is zeros (log 22). -/
def tableRequest (nbits w : Nat) : List Bool :=
  let asLength (n : Nat) : Option (List Bool) :=
    if 8 ≤ n ∧ n ≤ nbits ∧ w < 2 ^ n then
      match Opcode.ofByte (BitVec.ofNat 8 (w >>> (n - 8))) with
      | some o => if n = 8 + o.payloadLength Config.widths then some (Bits.ofVec (BitVec.ofNat n w)) else none
      | none => none
    else none
  let padded : List Bool :=
    match Opcode.ofByte (BitVec.ofNat 8 (w >>> (nbits - 8))) with
    | some o =>
      Bits.ofVec (BitVec.ofNat nbits w) ++ List.replicate (8 + o.payloadLength Config.widths - nbits) false
    | none => Bits.ofVec (BitVec.ofNat nbits w)
  (((List.range 8).map fun k => nbits - k).findSome? asLength).getD padded

/-- What the decoder reads from an opcode-table number (log 22). -/
def decodeTableWord (nbits w : Nat) : Option Instr :=
  (decode Config.widths (tableRequest nbits w)).toOption

end Sys2Proof
end

