-- ==== Sys2Proof/Machine/VoiceFields.lean ====
section
/-!
DEFINITION. Voice-payload field layout (`44_voice_fields.md`): FLDPACK, FLDUNPK.
-/

namespace Sys2Proof.Machine

variable {N : Type}

/-- `B_f[j]` (R121): the bit of significance j of field f. -/
def fieldBit (b : Fields) (p : FieldBit) : Bool :=
  match p.1 with
  | 0 => b.b0.getLsbD p.2
  | 1 => b.b1.getLsbD p.2
  | 2 => b.b2.getLsbD p.2
  | 3 => b.b3.getLsbD p.2
  | 4 => b.b4.getLsbD p.2
  | 5 => b.b5.getLsbD p.2
  | 6 => b.b6.getLsbD p.2
  | 7 => b.b7.getLsbD p.2
  | 8 => b.b8.getLsbD p.2

/-- `B_f[j] <- x` (R122). -/
def setFieldBit (b : Fields) (p : FieldBit) (x : Bool) : Fields :=
  match p.1 with
  | 0 => { b with b0 := Bits.setBit b.b0 p.2 x }
  | 1 => { b with b1 := Bits.setBit b.b1 p.2 x }
  | 2 => { b with b2 := Bits.setBit b.b2 p.2 x }
  | 3 => { b with b3 := Bits.setBit b.b3 p.2 x }
  | 4 => { b with b4 := Bits.setBit b.b4 p.2 x }
  | 5 => { b with b5 := Bits.setBit b.b5 p.2 x }
  | 6 => { b with b6 := Bits.setBit b.b6 p.2 x }
  | 7 => { b with b7 := Bits.setBit b.b7 p.2 x }
  | 8 => { b with b8 := Bits.setBit b.b8 p.2 x }

/-- All nine fields 0. -/
def zeroFields : Fields := ⟨0, 0, 0, 0, 0, 0, 0, 0, 0⟩

/-- `fldpack(B0..B8)` (R121). -/
def fldPack (cfg : Params N) (b : Fields) : Voice49 :=
  Bits.vec 49 ((List.finRange 49).map fun p => fieldBit b (cfg.fieldMap p))

/-- `fldunpk(V)` (R122): all fields 0, then every position of V written to its field bit. -/
def fldUnpack (cfg : Params N) (v : Voice49) : Fields :=
  (List.finRange 49).foldl (fun b p => setFieldBit b (cfg.fieldMap p) (v.getMsbD p)) zeroFields

/-- FLDPACK (R121). -/
def runFldpack (cfg : Params N) (b : Fields) (s : StateOf N) : ResultOf N :=
  .next (s.respond (Bits.ofVec (fldPack cfg b)))

/-- FLDPACK on the machine. -/
def execFldpack (b : Fields) (s : State) : Result :=
  onMachine (runFldpack Config.chip b s.toStateOf)

/-- FLDUNPK (R122). -/
def runFldunpk (cfg : Params N) (v : Voice49) (s : StateOf N) : ResultOf N :=
  .next (s.respond (encodeFields (fldUnpack cfg v)))

/-- FLDUNPK on the machine. -/
def execFldunpk (v : Voice49) (s : State) : Result :=
  onMachine (runFldunpk Config.chip v s.toStateOf)

end Sys2Proof.Machine
end

