-- ==== Sys2Proof/Machine/Quantizer.lean ====
section
/-!
DEFINITION. SpectralQuantizer (`45_spectral_quantizer.md`): the nine stages and SQENC. Every sign in a rule is the
operation of `NUM`, in the order written (R8). A stage takes the configuration as an argument; harmonic `l` of a
list stands at index `l - 1`.
-/

namespace Sys2Proof.Machine

variable {N : Type}

/-- The number 0.5 of R138 and R142: 1 / 2 in `NUM` (log 19). -/
def halfNum (num : Numerics N) : N := num.div (num.ofInt 1) (num.ofInt 2)

/-- The loop of R134, with a budget of steps. A budget of NP + 1 is never used up under R133 (R210, log 14). -/
def pitchSearch (cfg : Params N) (l : Nat) : Nat → Int → Option (BitVec 7)
  | 0, _ => none
  | budget + 1, idx =>
    if idx < 0 then none
    else
      match cfg.pitchTable[idx.toNat]? with
      | none => none
      | some b0 =>
        if cfg.harmCount b0 = l then some b0
        else if cfg.harmCount b0 < l then pitchSearch cfg l budget (idx + cfg.pitchDir)
        else pitchSearch cfg l budget (idx - cfg.pitchDir)

/-- Stage 1 (R134): b0, or `none` for ABORT. -/
def stage1 (cfg : Params N) (pitch l : Nat) : Option (BitVec 7) :=
  pitchSearch cfg l (cfg.pitchTable.length + 1) (cfg.pitchIndex0 pitch)

/-- The band of harmonic l (R136): `clamp(floor(ofInt(l) * 16 * f0), 0, 7)`. -/
def bandOf (num : Numerics N) (f0 : N) (l : Nat) : Nat :=
  (max 0 (min (num.floor (num.mul (num.mul (num.ofInt l) (num.ofInt 16)) f0)) 7)).toNat

/-- `E[n]` (R136): the energy of the harmonics whose flag disagrees with the pattern. -/
def mismatchEnergy (num : Numerics N) (pattern : BitVec 8) (f0 : N) (hs : List (Bool × N)) : N :=
  sumAsc num ((hs.mapIdx fun j h => (h, bandOf num f0 (j + 1))).filterMap fun x =>
    if x.1.1 != pattern.getMsbD x.2 then some (num.mul x.1.2 x.1.2) else none)

/-- Stage 2 (R136): b1. -/
def stage2 (cfg : Params N) (f0 : N) (hs : List (Bool × N)) : Fin 17 :=
  argminFirst cfg.num.lt fun n => mismatchEnergy cfg.num (cfg.vuvTable n) f0 hs

/-- Stage 3 (R137): the log envelope. -/
def stage3 (cfg : Params N) (l : Nat) (f0 : N) (hs : List (Bool × N)) : List N :=
  hs.map fun h =>
    cfg.num.add (if h.1 then cfg.offV l else cfg.offUV l f0)
      (cfg.num.log2 (cfg.num.max h.2 (cfg.num.ofInt 1)))

/-- `dg` of stage 4 (R138). -/
def gainResidual (cfg : Params N) (l : Nat) (lsa : List N) (gamma gadj : N) : N :=
  let gain := cfg.num.div (sumAsc cfg.num lsa) (cfg.num.ofInt l)
  cfg.num.sub (cfg.num.sub gain (cfg.num.mul (halfNum cfg.num) gamma)) gadj

/-- Stage 4 (R138): b2. -/
def stage4 (cfg : Params N) (l : Nat) (lsa : List N) (gamma gadj : N) : Fin 32 :=
  argminFirst cfg.num.lt fun i =>
    cfg.num.abs (cfg.num.sub (gainResidual cfg l lsa gamma gadj) (cfg.gainTable i))

/-- `Ep[i]` of R141: the previous envelope, index 0 reading as index 1; `none` outside 0..L_MAX+1. -/
def envAt (cfg : Params N) (p : PredState N) (i : Int) : Option N :=
  if 0 ≤ i ∧ i ≤ cfg.lMax + 1 then p.env[if i = 0 then 1 else i.toNat]? else none

/-- What stage 5 reads for one harmonic (R141): `Ep[kf]`, `Ep[kf + 1]` and the weight `fr`. -/
structure EnvRead (N : Type) where
  lo : N
  hi : N
  fr : N
  deriving DecidableEq, Repr

/-- The read of harmonic l (R141). -/
def envRead (cfg : Params N) (p : PredState N) (ratio : N) (l : Nat) : Option (EnvRead N) :=
  let k := cfg.num.mul ratio (cfg.num.ofInt l)
  let kf := cfg.num.floor k
  match envAt cfg p kf, envAt cfg p (kf + 1) with
  | some lo, some hi => some ⟨lo, hi, cfg.num.sub k (cfg.num.ofInt kf)⟩
  | _, _ => none

/-- All of a list of reads, or nothing. -/
def allSome {α : Type} : List (Option α) → Option (List α)
  | [] => some []
  | none :: _ => none
  | some x :: xs => (allSome xs).map (x :: ·)

/-- Everything stage 5 reads of `PRED` for a frame of `l` harmonics, or the fault that reading meets: `PRED.L`
outside 0..L_MAX (U9), an index outside 0..L_MAX+1 (R141). It depends on `PRED` and `l` alone (log 15). -/
def envWindow (cfg : Params N) (p : PredState N) (l : Nat) : Except Fault (List (EnvRead N)) :=
  if l = 0 then .ok []
  else if p.l < 0 ∨ (cfg.lMax : Int) < p.l then .error .predictorRange
  else
    let ratio := cfg.num.div (cfg.num.ofInt p.l) (cfg.num.ofInt l)
    match allSome ((List.range l).map fun j => envRead cfg p ratio (j + 1)) with
    | some w => .ok w
    | none => .error .envelopeIndex

/-- `P[l]` of R141: the previous envelope at a fractional position. -/
def interpolate (num : Numerics N) (r : EnvRead N) : N :=
  num.add (num.mul (num.sub (num.ofInt 1) r.fr) r.lo) (num.mul r.fr r.hi)

/-- Stage 5 (R141): the residuals. -/
def stage5 (cfg : Params N) (lsa : List N) (win : List (EnvRead N)) : List N :=
  List.zipWith (fun x r => cfg.num.sub x (cfg.num.mul cfg.rho (interpolate cfg.num r))) lsa win

/-- The cosine transform of R142 and R144: coefficient k of `size`, the sum in ascending index, scaled by 1/size. -/
def cosineTransform (num : Numerics N) (size : Nat) (xs : List N) : List N :=
  (List.range size).map fun k : Nat =>
    num.div
      (sumAsc num (xs.mapIdx fun j x =>
        num.mul x (num.cos (num.div
          (num.mul (num.mul num.pi (num.ofInt k)) (num.sub (num.ofInt (j + 1)) (halfNum num)))
          (num.ofInt size)))))
      (num.ofInt size)

/-- A sub-band: its size J and its coefficients C[1..J] (R142). -/
structure Subband (N : Type) where
  size : Nat
  coeff : List N
  deriving DecidableEq, Repr

/-- Stage 6 (R142): four contiguous sub-bands, transformed. -/
def stage6 (cfg : Params N) (l : Nat) (t : List N) : Vector (Subband N) 4 :=
  let j := cfg.subband l
  let band (start size : Nat) : Subband N := ⟨size, cosineTransform cfg.num size ((t.drop start).take size)⟩
  #v[band 0 j[0], band j[0] j[1], band (j[0] + j[1]) j[2], band (j[0] + j[1] + j[2]) j[3]]

/-- The pair R[2i-1], R[2i] of a sub-band (R143); a missing coefficient counts as 0. -/
def combine (num : Numerics N) (b : Subband N) : List N :=
  let c1 := if 1 ≤ b.size then b.coeff.getD 0 (num.ofInt 0) else num.ofInt 0
  let c2 := if 2 ≤ b.size then b.coeff.getD 1 (num.ofInt 0) else num.ofInt 0
  [num.add c1 (num.mul num.sqrt2 c2), num.sub c1 (num.mul num.sqrt2 c2)]

/-- The eight PRBA values G[1..8] (R143, R144). -/
def prbaValues (num : Numerics N) (bands : Vector (Subband N) 4) : List N :=
  cosineTransform num 8 (bands.toList.flatMap (combine num))

/-- A squared error over the components both lists have, in ascending order (R145, R146). -/
def squaredError (num : Numerics N) (xs ys : List N) : N :=
  sumAsc num (List.zipWith (fun x y => num.mul (num.sub x y) (num.sub x y)) xs ys)

/-- b3 (R145): G[2..4] against the 512-entry table. -/
def stage7A (cfg : Params N) (g : List N) : Fin 512 :=
  argminFirst cfg.num.lt fun n => squaredError cfg.num ((g.drop 1).take 3) (cfg.prbaA n).toList

/-- b4 (R145): G[5..8] against the 128-entry table. -/
def stage7B (cfg : Params N) (g : List N) : Fin 128 :=
  argminFirst cfg.num.lt fun n => squaredError cfg.num ((g.drop 4).take 4) (cfg.prbaB n).toList

/-- One sub-band of stage 8 (R146): index 0 for a size up to 2, else the nearest row over the compared coefficients. -/
def stage8 (num : Numerics N) {hi : Nat} (table : Fin (hi + 1) → Vector N 4) (b : Subband N) : Fin (hi + 1) :=
  if b.size ≤ 2 then 0
  else
    let m := min 4 (b.size - 2)
    argminFirst num.lt fun n => squaredError num ((table n).toList.take m) ((b.coeff.drop 2).take m)

/-- The abort output (R147). -/
def abortFields (cfg : Params N) : Fields := { zeroFields with b0 := cfg.silenceB0 }

/-- Stages 2 to 8 of a frame whose b0 is found (R150). -/
def quantize (cfg : Params N) (frame : VoiceFrame N) (b0 : BitVec 7) (win : List (EnvRead N)) (gamma gadj : N) :
    Fields :=
  let hs := harmonics frame
  let f0 := cfg.f0Table b0
  let lsa := stage3 cfg frame.l f0 hs
  let bands := stage6 cfg frame.l (stage5 cfg lsa win)
  let g := prbaValues cfg.num bands
  { b0 := b0
    b1 := BitVec.ofNat 5 (stage2 cfg f0 hs)
    b2 := BitVec.ofNat 5 (stage4 cfg frame.l lsa gamma gadj)
    b3 := BitVec.ofNat 9 (stage7A cfg g)
    b4 := BitVec.ofNat 7 (stage7B cfg g)
    b5 := BitVec.ofNat 5 (stage8 cfg.num cfg.hoc1 bands[0])
    b6 := BitVec.ofNat 4 (stage8 cfg.num cfg.hoc2 bands[1])
    b7 := BitVec.ofNat 4 (stage8 cfg.num cfg.hoc3 bands[2])
    b8 := BitVec.ofNat 3 (stage8 cfg.num cfg.hoc4 bands[3]) }

/-- Stages 1 to 8 (R150): the abort output, or the fields of a frame. -/
def sqFields (cfg : Params N) (frame : VoiceFrame N) (win : List (EnvRead N)) (gamma gadj : N) : Fields :=
  match stage1 cfg frame.pitch frame.l with
  | none => abortFields cfg
  | some b0 => quantize cfg frame b0 win gamma gadj

/-- Stage 9 (R148) and the response: the fields are packed, the external decoder replaces `PRED`, and its
reconstructed model is discarded. -/
def StateOf.commitFrame (cfg : Params N) (s : StateOf N) (b : Fields) : StateOf N :=
  let v := fldPack cfg b
  (s.setPred (cfg.decodeParams v s.pred).2).respond (Bits.ofVec v ++ encodeFields b)

/-- SQENC (R150). A read of `PRED` that the premises exclude stops the machine only if the frame gets to stage 5;
an aborted frame does not (log 15). -/
def runSqenc (cfg : Params N) (pitch : Nat) (l : BitVec 8) (vuv : List Bool) (mag : List Nat) (s : StateOf N) :
    ResultOf N :=
  let frame := voiceFrame cfg pitch l vuv mag
  if frameAccepted cfg frame then
    match envWindow cfg s.pred frame.l with
    | .ok win => .next (s.commitFrame cfg (sqFields cfg frame win s.pred.gamma s.gadj))
    | .error f =>
      match stage1 cfg frame.pitch frame.l with
      | none => .next (s.commitFrame cfg (abortFields cfg))
      | some _ => .fault f
  else .next s.misuse

/-- SQENC on the machine. -/
def execSqenc (pitch : Nat) (l : BitVec 8) (vuv : List Bool) (mag : List Nat) (s : State) : Result :=
  onMachine (runSqenc Config.chip pitch l vuv mag s.toStateOf)

end Sys2Proof.Machine
end

