-- ==== Sys2Proof/Machine/System.lean ====
section
/-!
DEFINITION. The commands that manage state (R175): SQRST and SQGAIN.
-/

namespace Sys2Proof.Machine

variable {N : Type}

/-- `clamp(x, lo, hi) = max(lo, min(hi, x))` (R8); `NUM` has no `min`, so it is the smaller by `lt` (log 6). -/
def clampNum (num : Numerics N) (x lo hi : N) : N :=
  num.max lo (if num.lt x hi then x else hi)

/-- `clamp(DB, -20, +20) * log2(10) / 20` (R160, log 26). -/
def gainOfDb (num : Numerics N) (db : N) : N :=
  num.div (num.mul (clampNum num db (num.ofInt (-20)) (num.ofInt 20)) (num.log2 (num.ofInt 10))) (num.ofInt 20)

/-- SQRST (R161): `PRED = PRED_RESET`, `GADJ` unchanged (R20). -/
def runSqrst (cfg : Params N) (s : StateOf N) : ResultOf N :=
  .next ((s.setPred cfg.predReset).respond [])

/-- SQRST on the machine. -/
def execSqrst (s : State) : Result :=
  onMachine (runSqrst Config.chip s.toStateOf)

/-- SQGAIN (R160). -/
def runSqgain (cfg : Params N) (db : Nat) (s : StateOf N) : ResultOf N :=
  if gainAccepted cfg (numOfBits cfg db) then
    .next ((s.setGadj (gainOfDb cfg.num (numOfBits cfg db))).respond [])
  else .next s.misuse

/-- SQGAIN on the machine. -/
def execSqgain (db : Nat) (s : State) : Result :=
  onMachine (runSqgain Config.chip db s.toStateOf)

end Sys2Proof.Machine
end

