-- ==== Sys2Proof/Machine/Dispatch.lean ====
section
/-! DEFINITION. One arm per command, each one call of its meaning. -/

namespace Sys2Proof.Machine

def exec (i : Instr) (s : State) : Host.Outcome State Fault Refusal :=
  match i with
  | .g24enc d => Sys2Proof.Machine.execG24enc d s
  | .g24dec cw => Sys2Proof.Machine.execG24dec cw s
  | .g23enc d => Sys2Proof.Machine.execG23enc d s
  | .g23dec cw => Sys2Proof.Machine.execG23dec cw s
  | .scrmask seed => Sys2Proof.Machine.execScrmask seed s
  | .ilvpack a b c => Sys2Proof.Machine.execIlvpack a b c s
  | .ilvunpk f => Sys2Proof.Machine.execIlvunpk f s
  | .fecpack v => Sys2Proof.Machine.execFecpack v s
  | .fecunpk f => Sys2Proof.Machine.execFecunpk f s
  | .fldpack b => Sys2Proof.Machine.execFldpack b s
  | .fldunpk v => Sys2Proof.Machine.execFldunpk v s
  | .sqenc pitch l vuv mag => Sys2Proof.Machine.execSqenc pitch l vuv mag s
  | .sqrst => Sys2Proof.Machine.execSqrst s
  | .sqgain db => Sys2Proof.Machine.execSqgain db s

end Sys2Proof.Machine
end

