-- ==== Sys2Proof/Machine/Step.lean ====
section
/-!
DEFINITION. One step of the core: it takes the host's next input and answers it (R40, R50). A core with no input is
idle and holds its state (R193, log 18).
-/

namespace Sys2Proof.Machine

/-- What a request does (R51, R57): the decoded command runs; a request that is no command is refused with MISUSE. -/
def runRequest (bits : List Bool) (s : State) : Host.Outcome State Fault Refusal :=
  match decode Config.widths bits with
  | .ok i => exec i s
  | .error _ => .next ⟨s.toStateOf.misuse⟩

/-- One host input answered (R40); a power-on reset, between commands or during one, gives no response (R200, R202). -/
def step (s : State) : Host.Outcome State Fault Refusal :=
  match s.inputs with
  | [] => .next s
  | .request bits :: rest => runRequest bits ⟨s.toStateOf.takeInput rest⟩
  | .powerOnReset :: rest => .next ⟨(s.toStateOf.takeInput rest).powerOn Config.chip⟩
  | .requestCutByReset _ :: rest => .next ⟨(s.toStateOf.takeInput rest).powerOn Config.chip⟩

/-- The request of an opcode-table number put before every other input, so that the next step runs it (logs 1, 22). -/
def State.withFetchWord (s : State) (nbits w : Nat) : State :=
  { s with inputs := .request (tableRequest nbits w) :: s.inputs }

end Sys2Proof.Machine
end

