-- ==== Sys2Proof/Machine/Pseudo.lean ====
section
/-!
DEFINITION. Command sequences as the host issues them: one after another (R40), and the two pseudo-commands of R60,
in which the host moves the voice payload of the first response into the second request (log 25).
-/

namespace Sys2Proof.Machine

/-- Commands issued one after another (R40), up to the first stop. -/
def runCommands : List Instr → State → Result
  | [], s => .next s
  | i :: rest, s =>
    match exec i s with
    | .next t => runCommands rest t
    | .fault f => .fault f
    | .refused r => .refused r

/-- The voice payload in an SQENC response: its first 49 positions (R53). -/
def voiceOfResponse : Response → Option Voice49
  | .ok payload => some (Bits.field 49 0 payload)
  | .misuse => none

/-- `ENCODE vmf -> f72` (R60): SQENC, then FECPACK of the V it answered; a refused SQENC has no V to move on. -/
def pseudoEncode (pitch : Nat) (l : BitVec 8) (vuv : List Bool) (mag : List Nat) (s : State) : Result :=
  match exec (.sqenc pitch l vuv mag) s with
  | .next t =>
    match t.responses.getLast?.bind voiceOfResponse with
    | some v => exec (.fecpack v) t
    | none => .next t
  | .fault f => .fault f
  | .refused r => .refused r

/-- `DECODE f72 -> v, err` (R60): FECUNPK. -/
def pseudoDecode (f : Frame72) (s : State) : Result := exec (.fecunpk f) s

end Sys2Proof.Machine
end

