-- ==== Sys2Proof/Machine/Constraints.lean ====
section
/-!
DEFINITION. The constraints of R9 on a configuration: the premises under which the properties of the spec hold for
every instance of the parameters.
-/

namespace Sys2Proof.Machine

/-- The product of two polynomials over GF(2), coefficients as bits: `a` has `n` coefficients (R71). -/
def gf2Mul (a b : Nat) : Nat → Nat
  | 0 => 0
  | n + 1 => gf2Mul a b n ^^^ (if a.testBit n then b * 2 ^ n else 0)

/-- `G23_POLY` (R9): bits 11 and 0 set, a divisor of x^23 + 1, and a code of minimum distance 7. -/
structure CodeWf {N : Type} (cfg : Params N) : Prop where
  topBit : cfg.g23Poly.getLsbD 11 = true
  lowBit : cfg.g23Poly.getLsbD 0 = true
  cyclic : polyRem cfg.g23Poly.toNat 13 (2 ^ 23 + 1) = 0
  minDistance : ∀ d : Data12, d ≠ 0 → 7 ≤ Bits.wt (enc23 cfg d)
  attained : ∃ d : Data12, Bits.wt (enc23 cfg d) = 7

/-- `ILV_A`, `ILV_B`, `ILV_C` together list every integer 0..71 exactly once (R100). -/
def InterleaverWf {N : Type} (cfg : Params N) : Prop :=
  ∀ p : Fin 72, (List.ofFn cfg.ilvA ++ List.ofFn cfg.ilvB ++ List.ofFn cfg.ilvC).count p = 1

/-- Every pair (f, j) with j < W(f) occurs exactly once in `FIELD_MAP`, and no other pair does (R120). -/
def FieldMapWf {N : Type} (cfg : Params N) : Prop :=
  (∀ p, (cfg.fieldMap p).2 < fieldWidth (cfg.fieldMap p).1) ∧
    ∀ f : Fin 9, ∀ j < fieldWidth f, (List.ofFn cfg.fieldMap).count (f, j) = 1

/-- A configuration that meets every constraint of R9. -/
structure ConfigWf {N : Type} (cfg : Params N) : Prop where
  code : CodeWf cfg
  interleaver : InterleaverWf cfg
  fieldMap : FieldMapWf cfg
  tables : cfg.toOpenTables.Wf cfg.num cfg.lMax cfg.pitchDir
  predReset : PredState.InRange cfg.lMax cfg.predReset

end Sys2Proof.Machine
end

