-- ==== Sys2Proof/Machine/Instance.lean ====
section
/-!
DEFINITION. The core instance of any configuration (R9): the command, the request, the step and the reset with the
configuration as an argument. The machine behind the host's interface is the instance of `Config.chip`: its `exec` and
`step` call the same meanings (`exec_eq_runInstr` and `step_eq_stepOf` in Laws/Exec.lean).
-/

namespace Sys2Proof.Machine

variable {N : Type}

/-- A command in an instance (R50): a function of the command, the state and the configuration (R9, R10). -/
def runInstr (cfg : Params N) (i : Instr) (s : StateOf N) : ResultOf N :=
  match i with
  | .g24enc d => runG24enc cfg d s
  | .g24dec cw => runG24dec cfg cw s
  | .g23enc d => runG23enc cfg d s
  | .g23dec cw => runG23dec cfg cw s
  | .scrmask seed => runScrmask seed s
  | .ilvpack a b c => runIlvpack cfg a b c s
  | .ilvunpk f => runIlvunpk cfg f s
  | .fecpack v => runFecpack cfg v s
  | .fecunpk f => runFecunpk cfg f s
  | .fldpack b => runFldpack cfg b s
  | .fldunpk v => runFldunpk cfg v s
  | .sqenc pitch l vuv mag => runSqenc cfg pitch l vuv mag s
  | .sqrst => runSqrst cfg s
  | .sqgain db => runSqgain cfg db s

/-- A request in an instance (R51, R57): its lengths are those of the instance's widths. -/
def requestOf (cfg : Params N) (bits : List Bool) (s : StateOf N) : ResultOf N :=
  match decode cfg.widths bits with
  | .ok i => runInstr cfg i s
  | .error _ => .next s.misuse

/-- One step of an instance (R40, R50, R193, R200, R202). -/
def stepOf (cfg : Params N) (s : StateOf N) : ResultOf N :=
  match s.inputs with
  | [] => .next s
  | .request bits :: rest => requestOf cfg bits (s.takeInput rest)
  | .powerOnReset :: rest => .next ((s.takeInput rest).powerOn cfg)
  | .requestCutByReset _ :: rest => .next ((s.takeInput rest).powerOn cfg)

/-- An instance behind the host's interface. -/
def instanceCore (cfg : Params N) : Host.Core where
  State := StateOf N
  Fault := Fault
  Refusal := Refusal
  step := stepOf cfg
  reset := StateOf.reset cfg

end Sys2Proof.Machine
end

