-- ==== Sys2Proof/Safety.lean ====
section
/-!
DEFINITION. What counts as a safe run, in the terms the statements use: the invariant of an instance's state, the
first least index of a search (R7), and the premises about the numerics, the external decoder and the host that the core cannot check (R123, R141, R205 to R208,
R211).
-/

namespace Sys2Proof.Machine

variable {N : Type}

/-- The values `GADJ` can hold (R17, R20): 0 from power-on, or what SQGAIN stores for a finite number of decibels. -/
def GadjLegal (cfg : Params N) (g : N) : Prop :=
  g = cfg.num.ofInt 0 ∨ ∃ db, cfg.num.finite db = true ∧ g = gainOfDb cfg.num db

/-- A response of the form R52 and R53 give: MISUSE, or OK with the result payload of some command. -/
def ResponseLegal (r : Response) : Prop :=
  r = .misuse ∨ ∃ (o : Opcode) (payload : List Bool), r = .ok payload ∧ payload.length = o.resultLength

/-- The invariant: `PRED` is one stage 5 can read (R14, U9), `GADJ` is legal, every response delivered is legal. -/
structure InvOf (cfg : Params N) (s : StateOf N) : Prop where
  pred : PredState.InRange cfg.lMax s.pred
  gadj : GadjLegal cfg s.gadj
  responses : ∀ r ∈ s.responses, ResponseLegal r

/-- The invariant of the machine. -/
abbrev Inv (s : State) : Prop := InvOf Config.chip s.toStateOf

/-- The premise of R141 about `NUM`: the position of a harmonic in the previous envelope has a floor in 0..`PRED.L`. -/
def FloorPremise (cfg : Params N) : Prop :=
  ∀ p l h : Nat, p ≤ cfg.lMax → l ≤ cfg.lMax → 1 ≤ h → h ≤ l →
    0 ≤ cfg.num.floor (cfg.num.mul (cfg.num.div (cfg.num.ofInt p) (cfg.num.ofInt l)) (cfg.num.ofInt h)) ∧
      cfg.num.floor (cfg.num.mul (cfg.num.div (cfg.num.ofInt p) (cfg.num.ofInt l)) (cfg.num.ofInt h)) ≤ p

/-- The errors of a search are ranked by `lt` as numbers are (R7: "where `lt` is a total order" on them): none is below
itself, and what is below the lower of two is below the other. -/
structure Ranks {β : Type} (lt : β → β → Bool) {n : Nat} (f : Fin n → β) : Prop where
  irrefl : ∀ i, lt (f i) (f i) = false
  trans : ∀ i j k, lt (f i) (f j) = true → lt (f j) (f k) = true → lt (f i) (f k) = true
  weak : ∀ i j k, lt (f i) (f j) = true → lt (f k) (f j) = false → lt (f i) (f k) = true

/-- Index `i` is the smallest at which the error is least (R7). -/
def FirstLeast {β : Type} (lt : β → β → Bool) {n : Nat} (f : Fin n → β) (i : Fin n) : Prop :=
  (∀ j, lt (f j) (f i) = false) ∧ ∀ j, j < i → lt (f i) (f j) = true

/-- The named premise of R123 and R211: the external decoder reads the voice payload through the same `FIELD_MAP`. -/
def FieldMapAgrees (cfg : Params N) (decoder : Fields → PredState N → VoiceFrame N × PredState N) : Prop :=
  ∀ v p, cfg.decodeParams v p = decoder (fldUnpack cfg v) p

/-- The host's duty at the start of a transmission (R205): the first command is SQRST. -/
def StartsTransmission (cmds : List Instr) : Prop := cmds.head? = some .sqrst

end Sys2Proof.Machine
end

