-- ==== Sys2Proof/Certificates/Slice0/Obligations.lean ====
section
/-!
DEFINITION. The statements for the provers. The next state of a command is written out as an update of the state it
started from, so that every field not named keeps its value. A statement over `Params N` holds for every instance of
the parameters that meets the premises it names; the others are about the machine, which is the instance of
`Config.chip` (`StepRunsTheDecodedCommand` says so): its L_MAX of 56 is log 4, its numerics log 5, its code log 2, its
permutations log 3, its request lengths log 23.
-/

open Sys2Proof Sys2Proof.Machine

/-! Requests and responses -/

/-- R51, R53, R55: in every instance, decoding the request of a well-formed command gives the command, every operand at
every value. -/
def Obligations.DecodeOfEncodeGivesTheCommand : Prop :=
  ∀ (w : Widths) (i : Instr), i.wf w = true → decode w (encode w i) = .ok i

/-- R51, R53: in every instance, a request that decodes is the request of the command it decodes to, and that command is
well-formed. -/
def Obligations.EncodeOfDecodeGivesTheRequest : Prop :=
  ∀ (w : Widths) (req : List Bool) (i : Instr), decode w req = .ok i → i.wf w = true ∧ encode w i = req

/-- R57, R181 (M1, M2): 242 byte values are reserved; a request is a command exactly when it has a listed opcode and the
length R51 requires, and any other request is answered MISUSE and changes nothing. That a request shorter than an opcode
is such a request is read from R51 and M2 (DEDUCED, log 16); the lengths of SQENC and SQGAIN requests of the machine are
logs 4 and 23. -/
def Obligations.ReservedOpcodeOrWrongLengthIsMisuse : Prop :=
  ((List.range 256).countP fun b => (Opcode.ofByte (BitVec.ofNat 8 b)).isNone) = 242 ∧
  (∀ (w : Widths) (req : List Bool), (∃ i, decode w req = .ok i) ↔
    ∃ o : Opcode, req.take 8 = Bits.ofVec o.byte ∧ req.length = 8 + o.payloadLength w) ∧
  ∀ (s : State) (req : List Bool) (rest : List HostInput), s.inputs = .request req :: rest →
    (¬ ∃ o : Opcode, req.take 8 = Bits.ofVec o.byte ∧ req.length = 8 + o.payloadLength Config.widths) →
    step s = .next { s with inputs := rest, responses := s.responses ++ [.misuse] }

/-- Words written out from R53's patterns and from `95_test_vectors.md` section 8, one for each opcode, with operands that
tell the fields of a payload apart. SQENC twice: section 8's request of 428 bits as it stands (L_MAX = 12), and the same
frame at the widths of the machine (L_MAX = 56 is log 4). -/
def Obligations.WrittenOutRequestsDecode : Prop :=
  decode Config.widths (Bits.ofVec 0x10ABC#20) = .ok (.g24enc 0xABC#12) ∧
  decode Config.widths (Bits.ofVec 0x112BD23D#32) = .ok (.g24dec 0x2BD23D#24) ∧
  decode Config.widths (Bits.ofVec 0b00010010000100100011#20) = .ok (.g23enc 0x123#12) ∧
  decode Config.widths (Bits.ofVec 0b0001001100101011110100100011111#31) = .ok (.g23dec 0x15E91F#23) ∧
  decode Config.widths (Bits.ofVec 0x20526#20) = .ok (.scrmask 0x526#12) ∧
  decode Config.widths (Bits.ofVec 0x30#8 ++ Bits.ofVec 0b101010111100001000111100#24 ++
    Bits.ofVec 0b00100110111101100110111#23 ++ Bits.ofVec 0b1010101010101010101010101#25) =
    .ok (.ilvpack 0xABC23C#24 0x137B37#23 0x1555555#25) ∧
  decode Config.widths (Bits.ofVec 0x31400000000000000000#80) = .ok (.ilvunpk 0x400000000000000000#72) ∧
  decode Config.widths (Bits.ofVec (0x40#8 ++ 1#49)) = .ok (.fecpack 1#49) ∧
  decode Config.widths (Bits.ofVec 0x414F6583EDAB2743C747#80) = .ok (.fecunpk 0x4F6583EDAB2743C747#72) ∧
  decode Config.widths (Bits.ofVec 0x50#8 ++ Bits.ofVec 0b1000000#7 ++ List.replicate 42 false) =
    .ok (.fldpack ⟨64, 0, 0, 0, 0, 0, 0, 0, 0⟩) ∧
  decode Config.widths (Bits.ofVec 0x50#8 ++ Bits.ofVec 0b1010101#7 ++ Bits.ofVec 0b01010#5 ++ Bits.ofVec 0b10101#5 ++
    Bits.ofVec 0b100100011#9 ++ Bits.ofVec 0b1000101#7 ++ Bits.ofVec 0b11111#5 ++ Bits.ofVec 0b1000#4 ++
    Bits.ofVec 0b0011#4 ++ Bits.ofVec 0b101#3) = .ok (.fldpack ⟨85, 10, 21, 291, 69, 31, 8, 3, 5⟩) ∧
  decode Config.widths (Bits.ofVec 0x51#8 ++ Bits.ofVec 0b1010101111000001001000111010101010101010101010101#49) =
    .ok (.fldunpk (0xABC#12 ++ 0x123#12 ++ 0x1555555#25)) ∧
  (let mag := [0x41800000, 0x41800000, 0x41000000, 0x41000000, 0x40800000, 0x40800000, 0x40000000, 0x40000000]
    let magBits := Bits.ofVec 0x4180000041800000410000004100000040800000408000004000000040000000#256
    decode ⟨16, 12, 32⟩ (Bits.ofVec 0x60#8 ++ Bits.ofVec 0b0000000000010101#16 ++ Bits.ofVec 0b00001000#8 ++
      Bits.ofVec 0b111100000000#12 ++ magBits ++ List.replicate 128 false) =
      .ok (.sqenc 21 8 (List.replicate 4 true ++ List.replicate 8 false) (mag ++ List.replicate 4 0)) ∧
    decode Config.widths (Bits.ofVec 0x60#8 ++ Bits.ofVec 0b0000000000010101#16 ++ Bits.ofVec 0b00001000#8 ++
      Bits.ofVec 0xF0000000000000#56 ++ magBits ++ List.replicate 1536 false) =
      .ok (.sqenc 21 8 (List.replicate 4 true ++ List.replicate 52 false) (mag ++ List.replicate 48 0))) ∧
  decode Config.widths (Bits.ofVec 0x61#8) = .ok .sqrst ∧
  decode Config.widths (Bits.ofVec 0x6240C0A8C1#40) = .ok (.sqgain 0x40C0A8C1)

/-- R40, R50: a step whose next input is the request of a command is that command's meaning, on the state with that
input taken and nothing else changed. R9: so it is in the instance of every configuration, and the machine is the
instance of `Config.chip`, which meets every constraint. -/
def Obligations.StepRunsTheDecodedCommand : Prop :=
  (∀ (s : State) (req : List Bool) (rest : List HostInput) (i : Instr),
    s.inputs = .request req :: rest → decode Config.widths req = .ok i → step s = exec i { s with inputs := rest }) ∧
  (∀ (N : Type) (cfg : Params N) (s : StateOf N) (req : List Bool) (rest : List HostInput) (i : Instr),
    s.inputs = .request req :: rest → decode cfg.widths req = .ok i →
    stepOf cfg s = runInstr cfg i { s with inputs := rest }) ∧
  ConfigWf Config.chip ∧ State.reset.toStateOf = StateOf.reset Config.chip ∧
  ∀ (s : State) (i : Instr), step s = onMachine (stepOf Config.chip s.toStateOf) ∧
    exec i s = onMachine (runInstr Config.chip i s.toStateOf)

/-- R193 (an idle core holds its state; that a step without input is a step at all is the model's choice, log 18). -/
def Obligations.IdleCoreHoldsItsState : Prop :=
  ∀ s : State, s.inputs = [] → step s = .next s

/-- R52, R53: a command that goes on delivers exactly one response: 8 bits, status 0x01, or status 0x00 and the result
payload of its opcode; the host's other inputs stay. -/
def Obligations.EveryCommandDeliversOneResponse : Prop :=
  ∀ (i : Instr) (s t : State), exec i s = .next t →
    ∃ r : Response, t.responses = s.responses ++ [r] ∧ t.inputs = s.inputs ∧
      ((r = .misuse ∧ r.bits = Bits.ofVec 0x01#8) ∨
        (r.bits.take 8 = Bits.ofVec 0x00#8 ∧ r.bits.length = 8 + i.opcode.resultLength))

/-- R182, R189: a request answered MISUSE, whatever the cause, leaves `PRED` and `GADJ`, its response is 8 bits with no
payload, and the next input is answered as if the refused request had never been issued. -/
def Obligations.RefusedRequestLeavesNoTrace : Prop :=
  Response.misuse.bits = Bits.ofVec 0x01#8 ∧
  ∀ (s t : State) (req : List Bool) (rest : List HostInput), s.inputs = .request req :: rest →
    step s = .next t → t.responses = s.responses ++ [.misuse] →
    t.pred = s.pred ∧ t.gadj = s.gadj ∧ t.inputs = rest ∧
      ∀ u, step { s with inputs := rest } = .next u →
        ∃ u' rs, step t = .next u' ∧ u'.pred = u.pred ∧ u'.gadj = u.gadj ∧ u'.inputs = u.inputs ∧
          u.responses = s.responses ++ rs ∧ u'.responses = s.responses ++ .misuse :: rs

/-! Reset and the state -/

/-- R19, R20: the state after power-on. That nothing is asked or answered yet is the model's own (log 1). -/
def Obligations.ResetStateIsPredResetAndZeroGain : Prop :=
  State.reset.pred = Config.chip.predReset ∧ State.reset.gadj = 0#32 ∧
    State.reset.inputs = [] ∧ State.reset.responses = []

/-- The invariant holds at reset. -/
def Obligations.ResetMeetsTheInvariant : Prop := Inv State.reset

/-- Every step keeps the invariant, in the instance of every configuration that meets R9 and in the machine: `PRED`
readable (R14, U9), `GADJ` in the range R17 gives, responses legal (R52). -/
def Obligations.EveryStepKeepsTheInvariant : Prop :=
  (∀ (N : Type) (cfg : Params N), ConfigWf cfg → ∀ s t : StateOf N, InvOf cfg s → stepOf cfg s = .next t →
    InvOf cfg t) ∧
  ∀ s t : State, Inv s → step s = .next t → Inv t

/-- From every state that meets the invariant the core goes on: no request makes it stop (R173, R180, R184). It does in
the instance of every configuration that meets R9 and the premise R141 names, and in the machine, whose numerics meet
that premise (log 5). -/
def Obligations.EveryStepFromTheInvariantGoesOn : Prop :=
  (∀ (N : Type) (cfg : Params N), ConfigWf cfg → FloorPremise cfg → ∀ s : StateOf N, InvOf cfg s →
    ∃ t, stepOf cfg s = .next t ∧ InvOf cfg t) ∧
  ∀ s : State, Inv s → ∃ t, step s = .next t ∧ Inv t

/-- R202 (and R200): a power-on reset, during a command or between two, gives no response and leaves `PRED_RESET` and
gain 0. -/
def Obligations.PowerOnResetEndsTheCommand : Prop :=
  ∀ (s : State) (i : HostInput) (rest : List HostInput), s.inputs = i :: rest →
    (i = .powerOnReset ∨ ∃ bits, i = .requestCutByReset bits) →
    step s = .next { s with pred := Config.chip.predReset, gadj := Config.chip.num.ofInt 0, inputs := rest }

/-- R15, R20: of the commands, only SQENC and SQRST change `PRED`. -/
def Obligations.OnlySqencAndSqrstWritePred : Prop :=
  ∀ (i : Instr) (s t : State), i.opcode ≠ .sqenc → i.opcode ≠ .sqrst → exec i s = .next t → t.pred = s.pred

/-- R17: `GADJ` is written only by SQGAIN. -/
def Obligations.OnlySqgainWritesGadj : Prop :=
  ∀ (i : Instr) (s t : State), i.opcode ≠ .sqgain → exec i s = .next t → t.gadj = s.gadj

/-- R36, R10: the eleven commands of ECC, SCR, ILV, FEC and the field layout complete in every state, with a response
that depends on the operands alone, and write no state. -/
def Obligations.StatelessCommandsReadAndWriteNoState : Prop :=
  ∀ i : Instr, i.opcode ≠ .sqenc → i.opcode ≠ .sqrst → i.opcode ≠ .sqgain →
    ∃ payload : List Bool, ∀ s : State,
      exec i s = .next { s with responses := s.responses ++ [.ok payload] }

/-- R10: what a command answers and leaves depends on `PRED` and `GADJ` alone: two states that agree on them give the
same response and the same new `PRED` and `GADJ`. -/
def Obligations.OutcomeDependsOnPredAndGadjAlone : Prop :=
  ∀ (i : Instr) (s₁ s₂ t₁ : State), s₁.pred = s₂.pred → s₁.gadj = s₂.gadj → exec i s₁ = .next t₁ →
    ∃ (r : Response) (t₂ : State), exec i s₂ = .next t₂ ∧ t₂.pred = t₁.pred ∧ t₂.gadj = t₁.gadj ∧
      t₁.responses = s₁.responses ++ [r] ∧ t₂.responses = s₂.responses ++ [r] ∧
      t₁.inputs = s₁.inputs ∧ t₂.inputs = s₂.inputs

/-! ErrorCorrectingCode -/

/-- R73, with its corner cases and its example. -/
def Obligations.G23encAnswersTheCodeword : Prop :=
  (∀ (d : Data12) (s : State), ∃ cw : Word23,
    cw.toNat = d.toNat * 2 ^ 11 + (par11 Config.chip d).toNat ∧
    exec (.g23enc d) s = .next { s with responses := s.responses ++ [.ok (Bits.ofVec cw)] }) ∧
  enc23 Config.chip 0x000#12 = 0x000000#23 ∧ enc23 Config.chip 0xFFF#12 = 0x7FFFFF#23 ∧
  ∀ s : State, exec (.g23enc 0xABC#12) s =
    .next { s with responses := s.responses ++ [.ok (Bits.ofVec 0x55E11E#23)] }

/-- R74 (and R72 for the reference sense of the parity bit), with the corner cases and examples. -/
def Obligations.G24encAnswersTheExtendedCodeword : Prop :=
  (∀ (d : Data12) (s : State), ∃ (c : Word23) (cw : Word24),
    c.toNat = d.toNat * 2 ^ 11 + (par11 Config.chip d).toNat ∧ cw.toNat = c.toNat * 2 + Bits.wt c % 2 ∧
    exec (.g24enc d) s = .next { s with responses := s.responses ++ [.ok (Bits.ofVec cw)] }) ∧
  enc24 Config.chip 0x000#12 = 0x000000#24 ∧ enc24 Config.chip 0xFFF#12 = 0xFFFFFF#24 ∧
  enc24 Config.chip 0xABC#12 = 0xABC23C#24 ∧ enc24 Config.chip 0x001#12 = 0x0018EB#24

/-- R71: for every generator of degree 11 the check bits are the remainder of d(x) x^11 (that word is a multiple of
g(x), and 11 bits leave no other), they are linear in the data, and the twelve unit words have the values listed. -/
def Obligations.CheckBitsAreALinearRemainder : Prop :=
  (∀ (N : Type) (cfg : Params N), cfg.g23Poly.getLsbD 11 = true →
    (∀ d : Data12, ∃ q, q < 2 ^ 12 ∧
      gf2Mul q cfg.g23Poly.toNat 12 = (d.toNat * 2 ^ 11) ^^^ (par11 cfg d).toNat) ∧
    ∀ a b : Data12, par11 cfg (a ^^^ b) = par11 cfg a ^^^ par11 cfg b) ∧
  (List.range 12).map (fun i => par11 Config.chip (BitVec.twoPow 12 (11 - i))) =
    [0x63A#11, 0x31D#11, 0x7B4#11, 0x3DA#11, 0x1ED#11, 0x6CC#11, 0x366#11, 0x1B3#11, 0x6E3#11, 0x54B#11, 0x49F#11,
      0x475#11]

/-- R72: the overall parity bit gives every 24-bit codeword even weight when `G24_EVEN` is true, odd when it is false. -/
def Obligations.ParityBitFixesTheWeightParity : Prop :=
  ∀ (N : Type) (cfg : Params N) (d : Data12),
    Bits.wt (enc24 cfg d) % 2 = if cfg.g24Even then 0 else 1

/-- R75: G23DEC answers the one nearest codeword's data and the distance to it, which fits 2 bits. -/
def Obligations.G23decAnswersTheNearestCodeword : Prop :=
  ∀ (cw : Word23) (s : State), ∃ (d : Data12) (cnt : BitVec 2),
    cnt.toNat = Bits.dH cw (enc23 Config.chip d) ∧
    (∀ d' : Data12, d' ≠ d → Bits.dH cw (enc23 Config.chip d) < Bits.dH cw (enc23 Config.chip d')) ∧
    exec (.g23dec cw) s = .next { s with responses := s.responses ++ [.ok (Bits.ofVec d ++ Bits.ofVec cnt)] }

/-- R76: G24DEC answers a nearest codeword's data, the smallest data value among ties (the spec's decision D10), and the
distance to it, which is at most 4. -/
def Obligations.G24decAnswersTheFirstNearestCodeword : Prop :=
  ∀ (cw : Word24) (s : State), ∃ (d : Data12) (cnt : BitVec 3),
    cnt.toNat = Bits.dH cw (enc24 Config.chip d) ∧ cnt.toNat ≤ 4 ∧
    (∀ d' : Data12, Bits.dH cw (enc24 Config.chip d) ≤ Bits.dH cw (enc24 Config.chip d') ∧
      (Bits.dH cw (enc24 Config.chip d') = Bits.dH cw (enc24 Config.chip d) → d.toNat ≤ d'.toNat)) ∧
    exec (.g24dec cw) s = .next { s with responses := s.responses ++ [.ok (Bits.ofVec d ++ Bits.ofVec cnt)] }

/-- R75, R78: for every code that meets R9, up to 3 errors in the 23 positions are corrected and counted. -/
def Obligations.UpToThreeErrorsAreCorrected23 : Prop :=
  ∀ (N : Type) (cfg : Params N), CodeWf cfg → ∀ (d : Data12) (e : Word23), Bits.wt e ≤ 3 →
    dec23 cfg (enc23 cfg d ^^^ e) = (d, Bits.wt e)

/-- R76, R78: for every code that meets R9, up to 3 errors in the 24 positions are corrected and counted. -/
def Obligations.UpToThreeErrorsAreCorrected24 : Prop :=
  ∀ (N : Type) (cfg : Params N), CodeWf cfg → ∀ (d : Data12) (e : Word24), Bits.wt e ≤ 3 →
    dec24 cfg (enc24 cfg d ^^^ e) = (d, Bits.wt e)

/-! Scrambler -/

/-- R90, R91: mask position i - 1 is bit 15 of iterate i; with the example. That the bit is bit 15 and that iterate i gives
position i - 1 are the spec's readings D11 and D12. -/
def Obligations.ScrmaskAnswersTheRecurrence : Prop :=
  (∀ (seed : Data12) (s : State), ∃ (p : Nat → Nat) (m : Word23),
    p 0 = 16 * seed.toNat ∧ (∀ i, p (i + 1) = (173 * p i + 13849) % 65536) ∧
    (∀ j < 23, m.getMsbD j = (p (j + 1)).testBit 15) ∧
    exec (.scrmask seed) s = .next { s with responses := s.responses ++ [.ok (Bits.ofVec m)] }) ∧
  ∀ s : State, exec (.scrmask 0#12) s =
    .next { s with responses := s.responses ++ [.ok (Bits.ofVec 0x216623#23)] }

/-! FrameInterleaver -/

/-- R101, with the three examples. -/
def Obligations.IlvpackWritesEveryBlockBit : Prop :=
  (∀ (a : Word24) (b : Word23) (c : Word25) (s : State), ∃ f : Frame72,
    (∀ i : Fin 24, f.getMsbD (Config.chip.ilvA i) = a.getMsbD i) ∧
    (∀ i : Fin 23, f.getMsbD (Config.chip.ilvB i) = b.getMsbD i) ∧
    (∀ i : Fin 25, f.getMsbD (Config.chip.ilvC i) = c.getMsbD i) ∧
    exec (.ilvpack a b c) s = .next { s with responses := s.responses ++ [.ok (Bits.ofVec f)] }) ∧
  Bits.frameBytes (ilvPack Config.chip 0x800000#24 0#23 0#25) = [0x80#8, 0, 0, 0, 0, 0, 0, 0, 0] ∧
  Bits.frameBytes (ilvPack Config.chip 0#24 0x400000#23 0#25) = [0, 0, 0, 0x40#8, 0, 0, 0, 0, 0] ∧
  Bits.frameBytes (ilvPack Config.chip 0#24 0#23 1#25) = [0, 0, 0, 0, 0, 0, 0, 0, 0x01#8]

/-- R102, with the example. -/
def Obligations.IlvunpkReadsEveryBlockBit : Prop :=
  (∀ (f : Frame72) (s : State), ∃ (a : Word24) (b : Word23) (c : Word25),
    (∀ i : Fin 24, a.getMsbD i = f.getMsbD (Config.chip.ilvA i)) ∧
    (∀ i : Fin 23, b.getMsbD i = f.getMsbD (Config.chip.ilvB i)) ∧
    (∀ i : Fin 25, c.getMsbD i = f.getMsbD (Config.chip.ilvC i)) ∧
    exec (.ilvunpk f) s =
      .next { s with responses := s.responses ++ [.ok (Bits.ofVec a ++ Bits.ofVec b ++ Bits.ofVec c)] }) ∧
  ilvUnpack Config.chip (Bits.ofFrameBytes [0x40#8, 0, 0, 0, 0, 0, 0, 0, 0]) = (0x000020#24, 0#23, 0#25)

/-- R103: for all tables that meet R100 the two commands are inverse bijections. -/
def Obligations.InterleaverIsABijection : Prop :=
  ∀ (N : Type) (cfg : Params N), InterleaverWf cfg →
    (∀ (a : Word24) (b : Word23) (c : Word25), ilvUnpack cfg (ilvPack cfg a b c) = (a, b, c)) ∧
    ∀ f : Frame72, ilvPack cfg (ilvUnpack cfg f).1 (ilvUnpack cfg f).2.1 (ilvUnpack cfg f).2.2 = f

/-- R32: byte k of a frame holds positions 8k to 8k+7, most significant bit first, and the nine bytes are the frame. -/
def Obligations.FrameBytesAreMsbFirst : Prop :=
  ∀ f : Frame72, (Bits.frameBytes f).length = 9 ∧
    (∀ k < 9, ∀ j < 8, ((Bits.frameBytes f).getD k 0#8).getLsbD (7 - j) = f.getMsbD (8 * k + j)) ∧
    Bits.ofFrameBytes (Bits.frameBytes f) = f

/-! FecFrameCodec -/

/-- R110, R111: A is the (24,12) codeword of voice positions 0..11, B the (23,12) codeword of positions 12..23 under the
mask of positions 0..11, C positions 24..48 verbatim; with the example. -/
def Obligations.FecpackComposesTheFrame : Prop :=
  (∀ (v : Voice49) (s : State), ∃ (u0 u1 : Data12) (u2 : Word25) (f : Frame72),
    (∀ i < 12, u0.getMsbD i = v.getMsbD i) ∧ (∀ i < 12, u1.getMsbD i = v.getMsbD (12 + i)) ∧
    (∀ i < 25, u2.getMsbD i = v.getMsbD (24 + i)) ∧
    f = ilvPack Config.chip (enc24 Config.chip u0) (enc23 Config.chip u1 ^^^ scrMask u0) u2 ∧
    exec (.fecpack v) s = .next { s with responses := s.responses ++ [.ok (Bits.ofVec f)] }) ∧
  ilvUnpack Config.chip (fecPack Config.chip 0#49) = (0x000000#24, 0x216623#23, 0#25) ∧
  Bits.frameBytes (fecPack Config.chip 0#49) =
    [0x22#8, 0x00#8, 0x02#8, 0x04#8, 0x02#8, 0x20#8, 0x40#8, 0x44#8, 0x00#8]

/-- R112, R113: FECUNPK answers every frame with status OK; A is decoded first, B is descrambled with the mask of the
decoded U0, C is verbatim, and ERR is the exact sum of the two counts. -/
def Obligations.FecunpkDecodesEveryFrame : Prop :=
  ∀ (f : Frame72) (s : State), ∃ (v : Voice49) (err : BitVec 3) (u0 u1 : Data12) (errA errB : Nat),
    dec24 Config.chip (ilvUnpack Config.chip f).1 = (u0, errA) ∧
    dec23 Config.chip ((ilvUnpack Config.chip f).2.1 ^^^ scrMask u0) = (u1, errB) ∧
    (∀ i < 12, v.getMsbD i = u0.getMsbD i) ∧ (∀ i < 12, v.getMsbD (12 + i) = u1.getMsbD i) ∧
    (∀ i < 25, v.getMsbD (24 + i) = (ilvUnpack Config.chip f).2.2.getMsbD i) ∧
    err.toNat = errA + errB ∧
    exec (.fecunpk f) s = .next { s with responses := s.responses ++ [.ok (Bits.ofVec v ++ Bits.ofVec err)] }

/-- R114 (a): for every configuration that meets R9, a packed voice payload comes back with no error counted. -/
def Obligations.FecRoundTripCountsNoError : Prop :=
  ∀ (N : Type) (cfg : Params N), CodeWf cfg → InterleaverWf cfg →
    ∀ v : Voice49, fecUnpack cfg (fecPack cfg v) = (v, 0, 0)

/-- R114 (b), (d): for every configuration that meets R9, up to 3 flips in A and up to 3 in B are all corrected, and the
counts are the numbers of flips. -/
def Obligations.FecCorrectsThreeFlipsPerBlock : Prop :=
  ∀ (N : Type) (cfg : Params N), CodeWf cfg → InterleaverWf cfg →
    ∀ (v : Voice49) (eA : Word24) (eB : Word23), Bits.wt eA ≤ 3 → Bits.wt eB ≤ 3 →
      fecUnpack cfg (fecPack cfg v ^^^ ilvPack cfg eA eB 0#25) = (v, Bits.wt eA, Bits.wt eB)

/-- R114 (c), for any flips in C and any frame: they change the same positions of U2 and nothing else. -/
def Obligations.FecPassesBlockCThrough : Prop :=
  ∀ (N : Type) (cfg : Params N), InterleaverWf cfg → ∀ (f : Frame72) (eC : Word25),
    fecUnpack cfg (f ^^^ ilvPack cfg 0#24 0#23 eC) =
      ((fecUnpack cfg f).1 ^^^ joinVoice 0#12 0#12 eC, (fecUnpack cfg f).2.1, (fecUnpack cfg f).2.2)

/-- P1 on the machine (R60, R114): the frame FECPACK answers, given to FECUNPK, gives the payload back and ERR = 0. -/
def Obligations.FecunpkOfFecpackAnswersThePayload : Prop :=
  ∀ (v : Voice49) (s : State), ∃ (f : Frame72) (t u : State),
    exec (.fecpack v) s = .next t ∧ t.responses = s.responses ++ [.ok (Bits.ofVec f)] ∧
    exec (.fecunpk f) t = .next u ∧
    u.responses = t.responses ++ [.ok (Bits.ofVec v ++ [false, false, false])]

/-! Voice-payload fields -/

/-- R121, with its two examples. -/
def Obligations.FldpackPlacesEveryFieldBit : Prop :=
  (∀ (b : Fields) (s : State), ∃ v : Voice49,
    (∀ p : Fin 49, v.getMsbD p = fieldBit b (Config.chip.fieldMap p)) ∧
    exec (.fldpack b) s = .next { s with responses := s.responses ++ [.ok (Bits.ofVec v)] }) ∧
  fldPack Config.chip ⟨0x40, 0, 0, 0, 0, 0, 0, 0, 0⟩ = BitVec.twoPow 49 48 ∧
  fldPack Config.chip ⟨0, 0, 0, 0, 0, 0, 0, 0, 1⟩ = 1#49

/-- R122, first part and example: every field bit is read from its position; and the fields of a result written out, b0
first (R53). -/
def Obligations.FldunpkReadsEveryFieldBit : Prop :=
  (∀ (v : Voice49) (s : State), ∃ b : Fields,
    (∀ p : Fin 49, fieldBit b (Config.chip.fieldMap p) = v.getMsbD p) ∧
    exec (.fldunpk v) s = .next { s with responses := s.responses ++ [.ok (encodeFields b)] }) ∧
  fldUnpack Config.chip (BitVec.twoPow 49 (48 - 35)) = ⟨0, 1, 0, 0, 0, 0, 0, 0, 0⟩ ∧
  encodeFields ⟨85, 10, 21, 291, 69, 31, 8, 3, 5⟩ =
    Bits.ofVec 0b1010101010101010110010001110001011111110000011101#49

/-- R122, last part: for every layout that meets R120 the two commands are inverse bijections. -/
def Obligations.FieldLayoutIsABijection : Prop :=
  ∀ (N : Type) (cfg : Params N), FieldMapWf cfg →
    (∀ b : Fields, fldUnpack cfg (fldPack cfg b) = b) ∧ ∀ v : Voice49, fldPack cfg (fldUnpack cfg v) = v

/-- R123: if the layout is the one the external decoder assumes, stage 9 hands it the very fields the quantizer chose. -/
def Obligations.AgreeingLayoutHandsOverTheChosenFields : Prop :=
  ∀ (N : Type) (cfg : Params N) (decoder : Fields → PredState N → VoiceFrame N × PredState N),
    FieldMapWf cfg → FieldMapAgrees cfg decoder →
    ∀ (b : Fields) (p : PredState N), cfg.decodeParams (fldPack cfg b) p = decoder b p

/-- R124: which field bits the reference layout puts into U0 and into U1. -/
def Obligations.ReferenceLayoutProtectsTheseBits : Prop :=
  (∀ p : Fin 49, p.val < 12 ↔ Config.chip.fieldMap p ∈
    ([(0, 6), (0, 5), (0, 4), (0, 3), (1, 4), (1, 3), (1, 2), (1, 1), (2, 4), (2, 3), (2, 2), (2, 1)] :
      List FieldBit)) ∧
  ∀ p : Fin 49, (12 ≤ p.val ∧ p.val < 24) ↔ Config.chip.fieldMap p ∈
    ([(3, 8), (3, 7), (3, 6), (3, 5), (3, 4), (3, 3), (3, 2), (3, 1), (4, 6), (4, 5), (4, 4), (4, 3)] :
      List FieldBit)

/-! SpectralQuantizer -/

/-- R7, and the four searches that use it. The search answers the smallest index of least error wherever `lt` ranks the
errors, and the reference numerics rank all that are numbers. Then, in every instance: b1 is that index for the energy of
the harmonics whose flag disagrees with the pattern of their band (R136); b2 for the distance of the gain residual to the
table (R138); b3 for the squared error of G[2..4] and b4 for that of G[5..8] (R145, decision D25); and G is the 8-point
transform of the four sums and differences (R143, decisions D24 and D26; R144). Sums run in the order `sumAsc` gives them
(R8). That 0.5 is ofInt 1 / ofInt 2 and that a square is a product is DEDUCED (log 19); the numerics are log 5. -/
def Obligations.SearchAnswersTheFirstLeastError : Prop :=
  (∀ (hi : Nat) (f : Fin (hi + 1) → Num32), (∀ i, F32.isNan (f i) = false) →
    Ranks F32.lt f ∧ FirstLeast F32.lt f (argminFirst F32.lt f)) ∧
  ∀ (N : Type) (cfg : Params N),
    let n := cfg.num
    (∀ (f0 : N) (hs : List (Bool × N)) (err : Fin 17 → N),
      (∀ i, err i = sumAsc n (((List.finRange hs.length).filter fun j : Fin hs.length =>
        decide (hs[j].1 ≠ (cfg.vuvTable i).getMsbD
          (max 0 (min 7 (n.floor (n.mul (n.mul (n.ofInt (j.val + 1 : Nat)) (n.ofInt 16)) f0)))).toNat)).map
        fun j : Fin hs.length => n.mul hs[j].2 hs[j].2)) →
      Ranks n.lt err → FirstLeast n.lt err (stage2 cfg f0 hs)) ∧
    (∀ (l : Nat) (lsa : List N) (gamma gadj : N) (err : Fin 32 → N),
      (∀ i, err i = n.abs (n.sub (n.sub (n.sub (n.div (sumAsc n lsa) (n.ofInt l))
        (n.mul (n.div (n.ofInt 1) (n.ofInt 2)) gamma)) gadj) (cfg.gainTable i))) →
      Ranks n.lt err → FirstLeast n.lt err (stage4 cfg l lsa gamma gadj)) ∧
    (∀ (g : Vector N 8) (err : Fin 512 → N),
      (∀ i, err i = sumAsc n ((List.finRange 3).map fun q : Fin 3 =>
        n.mul (n.sub g[q.val + 1] (cfg.prbaA i)[q]) (n.sub g[q.val + 1] (cfg.prbaA i)[q]))) →
      Ranks n.lt err → FirstLeast n.lt err (stage7A cfg g.toList)) ∧
    (∀ (g : Vector N 8) (err : Fin 128 → N),
      (∀ i, err i = sumAsc n ((List.finRange 4).map fun q : Fin 4 =>
        n.mul (n.sub g[q.val + 4] (cfg.prbaB i)[q]) (n.sub g[q.val + 4] (cfg.prbaB i)[q]))) →
      Ranks n.lt err → FirstLeast n.lt err (stage7B cfg g.toList)) ∧
    ∀ (bands : Vector (Subband N) 4) (r : Fin 8 → N),
      (∀ i : Fin 4,
        let c1 := if 1 ≤ bands[i].size then bands[i].coeff.getD 0 (n.ofInt 0) else n.ofInt 0
        let c2 := if 2 ≤ bands[i].size then bands[i].coeff.getD 1 (n.ofInt 0) else n.ofInt 0
        r ⟨2 * i.val, by omega⟩ = n.add c1 (n.mul n.sqrt2 c2) ∧
          r ⟨2 * i.val + 1, by omega⟩ = n.sub c1 (n.mul n.sqrt2 c2)) →
      (prbaValues n bands).length = 8 ∧
        ∀ m : Fin 8, (prbaValues n bands)[m.val]? = some (n.div
          (sumAsc n ((List.finRange 8).map fun i : Fin 8 => n.mul (r i) (n.cos (n.div
            (n.mul (n.mul n.pi (n.ofInt m.val)) (n.sub (n.ofInt (i.val + 1 : Nat)) (n.div (n.ofInt 1) (n.ofInt 2))))
            (n.ofInt 8)))))
          (n.ofInt 8))

/-- R171: a not-a-number never wins a comparison, and the integers of magnitude up to 2 * L_MAX are exact: the value
(-1)^sign * mant * 2^expo of the word of i is i, and its floor is i. -/
def Obligations.NumericsOfSmallIntegersAndNan : Prop :=
  (∀ x y : Num32, F32.isNan x = true ∨ F32.isNan y = true → F32.lt x y = false) ∧
    ∀ i : Int, -112 ≤ i → i ≤ 112 →
      F32.finite (F32.ofInt i) = true ∧
      F32.signedMant (F32.ofInt i) * 2 ^ (F32.expo (F32.ofInt i)).toNat =
        i * 2 ^ (-F32.expo (F32.ofInt i)).toNat ∧
      F32.floor (F32.ofInt i) = i

/-- R134 under R133: stage 1 answers a table value that implies L; it aborts exactly when the starting index lies outside
the table or no index implies L. -/
def Obligations.PitchSearchFindsTheCountOrAborts : Prop :=
  ∀ (N : Type) (cfg : Params N), PitchTablesWf cfg.lMax cfg.pitchDir cfg.toOpenTables → ∀ pitch l : Nat,
    (∀ b0, stage1 cfg pitch l = some b0 → b0 ∈ cfg.pitchTable ∧ cfg.harmCount b0 = l) ∧
    (stage1 cfg pitch l = none ↔
      cfg.pitchIndex0 pitch < 0 ∨ (cfg.pitchTable.length : Int) ≤ cfg.pitchIndex0 pitch ∨
        ∀ i, cfg.impliedCount i ≠ some (l : Int))

/-- R134, R210: under R133 the loop ends by itself, with no need of the model's budget of NP + 1 looks (log 14). The walk
from the starting index, one step by `PITCH_DIR` toward the count asked for at each look inside the table, comes within NP
steps to an index outside the table or to one that implies L; stage 1 answers the table value there, or aborts if there is
none; and a larger budget changes nothing. -/
def Obligations.PitchSearchNeverUsesUpItsBudget : Prop :=
  ∀ (N : Type) (cfg : Params N), PitchTablesWf cfg.lMax cfg.pitchDir cfg.toOpenTables → ∀ pitch l : Nat,
    (∀ walk : Nat → Int, walk 0 = cfg.pitchIndex0 pitch →
      (∀ n a, 0 ≤ walk n → cfg.impliedCount (walk n).toNat = some a → a ≠ l →
        walk (n + 1) = if a < l then walk n + cfg.pitchDir else walk n - cfg.pitchDir) →
      ∃ n ≤ cfg.pitchTable.length,
        (walk n < 0 ∨ (cfg.pitchTable.length : Int) ≤ walk n ∨ cfg.impliedCount (walk n).toNat = some (l : Int)) ∧
        (∀ m < n, 0 ≤ walk m ∧ ∃ a, cfg.impliedCount (walk m).toNat = some a ∧ a ≠ l) ∧
        stage1 cfg pitch l = if 0 ≤ walk n then cfg.pitchTable[(walk n).toNat]? else none) ∧
    ∀ extra : Nat,
      pitchSearch cfg l (cfg.pitchTable.length + 1 + extra) (cfg.pitchIndex0 pitch) = stage1 cfg pitch l

/-- R137: in every instance stage 3 gives each harmonic `OFF_V(L)` if it is voiced and `OFF_UV(L, f0)` if not, plus
log2(max(MAG, 1)); a magnitude below 1 counts as 1 in the reference numerics (log 5). -/
def Obligations.SmallMagnitudesCountAsOne : Prop :=
  (∀ (N : Type) (cfg : Params N) (l : Nat) (f0 : N) (hs : List (Bool × N)),
    (stage3 cfg l f0 hs).length = hs.length ∧
    ∀ (j : Nat) (voiced : Bool) (m : N), hs[j]? = some (voiced, m) →
      (stage3 cfg l f0 hs)[j]? = some (cfg.num.add (match voiced with | true => cfg.offV l | false => cfg.offUV l f0)
        (cfg.num.log2 (cfg.num.max m (cfg.num.ofInt 1))))) ∧
  ∀ (l : Nat) (f0 m : Num32) (voiced : Bool), F32.lt m (F32.ofInt 1) = true →
    F32.max m (F32.ofInt 1) = F32.ofInt 1 ∧
    stage3 Config.chip l f0 [(voiced, m)] = stage3 Config.chip l f0 [(voiced, F32.ofInt 1)]

/-- R141: what stage 5 subtracts, and that it can read it. In every instance in which the reads of a frame succeed,
T[l] = lsa[l] - RHO * P[l] with P[l] = (1 - fr) * Ep[kf] + fr * Ep[kf + 1], k = (PRED.L / L) * l, kf = floor(k),
fr = k - kf, and Ep[0] = PRED.ENV[1] (decision D22). (b): with `PRED.L` in 0..L_MAX and a whole envelope, no read of a
frame of up to L_MAX harmonics lies outside 0..L_MAX+1 in the reference numerics (log 5; L_MAX = 56 is log 4), and there is
one read for each harmonic. -/
def Obligations.EnvelopeReadsStayInRange : Prop :=
  (∀ (N : Type) (cfg : Params N) (p : PredState N) (l : Nat) (lsa : List N) (w : List (EnvRead N)),
    envWindow cfg p l = .ok w → lsa.length = l →
    (stage5 cfg lsa w).length = l ∧
    ∀ j < l,
      let n := cfg.num
      let k := n.mul (n.div (n.ofInt p.l) (n.ofInt l)) (n.ofInt (j + 1 : Nat))
      let kf := n.floor k
      let fr := n.sub k (n.ofInt kf)
      0 ≤ kf ∧ kf ≤ cfg.lMax ∧
      ∃ x lo hi, lsa[j]? = some x ∧ p.env[if kf = 0 then 1 else kf.toNat]? = some lo ∧
        p.env[kf.toNat + 1]? = some hi ∧
        (stage5 cfg lsa w)[j]? = some (n.sub x (n.mul cfg.rho
          (n.add (n.mul (n.sub (n.ofInt 1) fr) lo) (n.mul fr hi))))) ∧
  ∀ (p : PredState Num32) (l : Nat), PredState.InRange 56 p → l ≤ 56 →
    ∃ w, envWindow Config.chip p l = .ok w ∧ w.length = l

/-- R142: the four sub-bands are contiguous and partition the harmonics: sub-band i has size J[i] of `SUBBAND[L]` and holds
the transform of the J[i] residuals that start after J[1] + .. + J[i-1]; those four slices joined are all the residuals,
and there is one coefficient for each, of the value R142 gives (decision D23; 0.5 as ofInt 1 / ofInt 2 is DEDUCED,
log 19). -/
def Obligations.SubbandsPartitionTheHarmonics : Prop :=
  ∀ (N : Type) (cfg : Params N), cfg.toOpenTables.Wf cfg.num cfg.lMax cfg.pitchDir →
    ∀ (l : Nat) (t : List N), 1 ≤ l → l ≤ cfg.lMax → t.length = l →
      let slice (i : Fin 4) : List N := (t.drop ((cfg.subband l).toList.take i).sum).take (cfg.subband l)[i]
      (∀ i : Fin 4, (stage6 cfg l t)[i] =
        ⟨(cfg.subband l)[i], cosineTransform cfg.num (cfg.subband l)[i] (slice i)⟩) ∧
      (∀ i : Fin 4, (slice i).length = (cfg.subband l)[i]) ∧
      slice 0 ++ slice 1 ++ slice 2 ++ slice 3 = t ∧
      (∀ i : Fin 4, ∀ k < (cfg.subband l)[i], ((stage6 cfg l t)[i]).coeff[k]? = some (cfg.num.div
        (sumAsc cfg.num ((List.finRange (slice i).length).map fun j : Fin (slice i).length =>
          cfg.num.mul (slice i)[j] (cfg.num.cos (cfg.num.div
            (cfg.num.mul (cfg.num.mul cfg.num.pi (cfg.num.ofInt k))
              (cfg.num.sub (cfg.num.ofInt (j.val + 1 : Nat)) (cfg.num.div (cfg.num.ofInt 1) (cfg.num.ofInt 2))))
            (cfg.num.ofInt (cfg.subband l)[i])))))
        (cfg.num.ofInt (cfg.subband l)[i]))) ∧
      ((stage6 cfg l t).toList.map (·.coeff.length)).sum = l

/-- R146: a sub-band of size up to 2 gives index 0; otherwise the index is the first of least squared error over
coefficients 3 to 2 + min(4, J - 2), and no other coefficient counts. That a square is a product is DEDUCED (log 19). -/
def Obligations.HigherOrderIndexReadsFourCoefficients : Prop :=
  ∀ (N : Type) (num : Numerics N) (hi : Nat) (table : Fin (hi + 1) → Vector N 4) (b b' : Subband N),
    (b.size ≤ 2 → stage8 num table b = 0) ∧
    (b.size = b'.size → (b.coeff.drop 2).take 4 = (b'.coeff.drop 2).take 4 →
      stage8 num table b = stage8 num table b') ∧
    ∀ err : Fin (hi + 1) → N, 2 < b.size → b.coeff.length = b.size →
      (∀ n, err n = sumAsc num (((List.finRange 4).filter fun q => decide (q.val < b.size - 2)).map fun q : Fin 4 =>
        let d := num.sub (table n)[q] (b.coeff.getD (2 + q) (num.ofInt 0))
        num.mul d d)) →
      Ranks num.lt err → FirstLeast num.lt err (stage8 num table b)

/-- R151: the fields of any frame stay in their ranges: b0 an entry of the pitch table or the sentinel, b1 at most 16. -/
def Obligations.FieldsStayInRange : Prop :=
  ∀ (N : Type) (cfg : Params N) (frame : VoiceFrame N) (win : List (EnvRead N)) (gamma gadj : N),
    ((sqFields cfg frame win gamma gadj).b0 ∈ cfg.pitchTable ∨
      (sqFields cfg frame win gamma gadj).b0 = cfg.silenceB0) ∧
    (sqFields cfg frame win gamma gadj).b1.toNat ≤ 16

/-- R132, R150, R148, R152: SQENC completes for every frame that passes the checks, from every `PRED` in range: the
response is V and the fields of stages 1 to 8, `PRED` is what the external decoder makes of V, and nothing else changes
(that stage 5 can read `PRED` for every such frame is a fact of the reference numerics, log 5; L_MAX = 56 is log 4). Those
fields, in every instance (R150): of a frame that stage 1 aborts, the sentinel and zeros (R147); of any other, b0 of
stage 1 and, with f0 = `F0_TABLE[b0]` (R135) and the first L pairs of flag and magnitude, the index of each search, over
what the stages before it made. -/
def Obligations.SqencCompletesAndReplacesPred : Prop :=
  (∀ (pitch : Nat) (l : BitVec 8) (vuv : List Bool) (mag : List Nat) (s : State),
    PredState.InRange 56 s.pred → l.toNat ≤ 56 → (∀ m ∈ mag.take l.toNat, F32.finite (BitVec.ofNat 32 m) = true) →
    ∃ (w : List (EnvRead Num32)) (b : Fields),
      envWindow Config.chip s.pred l.toNat = .ok w ∧
      b = sqFields Config.chip ⟨pitch, l.toNat, vuv, mag.map (BitVec.ofNat 32)⟩ w s.pred.gamma s.gadj ∧
      exec (.sqenc pitch l vuv mag) s =
        .next { s with
          pred := (Config.chip.decodeParams (fldPack Config.chip b) s.pred).2
          responses := s.responses ++ [.ok (Bits.ofVec (fldPack Config.chip b) ++ encodeFields b)] }) ∧
  ∀ (N : Type) (cfg : Params N) (frame : VoiceFrame N) (w : List (EnvRead N)) (gamma gadj : N),
    let b := sqFields cfg frame w gamma gadj
    (stage1 cfg frame.pitch frame.l = none → b = ⟨cfg.silenceB0, 0, 0, 0, 0, 0, 0, 0, 0⟩) ∧
    ∀ b0, stage1 cfg frame.pitch frame.l = some b0 →
      let f0 := cfg.f0Table b0
      let hs := (frame.vuv.zip frame.mag).take frame.l
      let lsa := stage3 cfg frame.l f0 hs
      let bands := stage6 cfg frame.l (stage5 cfg lsa w)
      let g := prbaValues cfg.num bands
      b.b0 = b0 ∧
      b.b1.toNat = (stage2 cfg f0 hs).val ∧
      b.b2.toNat = (stage4 cfg frame.l lsa gamma gadj).val ∧
      b.b3.toNat = (stage7A cfg g).val ∧
      b.b4.toNat = (stage7B cfg g).val ∧
      b.b5.toNat = (stage8 cfg.num cfg.hoc1 bands[0]).val ∧
      b.b6.toNat = (stage8 cfg.num cfg.hoc2 bands[1]).val ∧
      b.b7.toNat = (stage8 cfg.num cfg.hoc3 bands[2]).val ∧
      b.b8.toNat = (stage8 cfg.num cfg.hoc4 bands[3]).val

/-- R147, R134, R148 (decision D28), R150: a frame that stage 1 aborts has b0 the sentinel and the other fields 0, with
status OK, and `PRED` is replaced by the decoder all the same. Every frame with L = 0 or L below `L_MIN` is aborted (R58,
R132; that no table entry implies less than `L_MIN` is DEDUCED, log 10). That an abort does not read `PRED`, so that it
happens whatever `PRED` was, is DEDUCED (log 15); L_MAX = 56 is log 4. -/
def Obligations.SqencAbortsWithTheSilenceFields : Prop :=
  (∀ (pitch : Nat) (l : BitVec 8) (vuv : List Bool) (mag : List Nat) (s : State),
    stage1 Config.chip pitch l.toNat = none → l.toNat ≤ 56 →
    (∀ m ∈ mag.take l.toNat, F32.finite (BitVec.ofNat 32 m) = true) →
    ∃ v : Voice49, v = fldPack Config.chip ⟨Config.chip.silenceB0, 0, 0, 0, 0, 0, 0, 0, 0⟩ ∧
      exec (.sqenc pitch l vuv mag) s =
        .next { s with
          pred := (Config.chip.decodeParams v s.pred).2
          responses := s.responses ++
            [.ok (Bits.ofVec v ++ encodeFields ⟨Config.chip.silenceB0, 0, 0, 0, 0, 0, 0, 0, 0⟩)] }) ∧
  (∀ pitch : Nat, stage1 Config.chip pitch 0 = none) ∧
  ∀ pitch l : Nat, l < Config.chip.lMin → stage1 Config.chip pitch l = none

/-- R181 (M3, M4, M5), R182, R160: L above L_MAX, a magnitude of a harmonic up to L that is not finite, or a gain that is
not finite, is answered MISUSE and changes nothing. That L_MAX is 56 in the machine is PRESUMED (log 4). -/
def Obligations.BadOperandsAreMisuse : Prop :=
  (∀ (pitch : Nat) (l : BitVec 8) (vuv : List Bool) (mag : List Nat) (s : State),
    (56 < l.toNat ∨ ∃ m ∈ mag.take l.toNat, F32.finite (BitVec.ofNat 32 m) = false) →
    exec (.sqenc pitch l vuv mag) s = .next { s with responses := s.responses ++ [.misuse] }) ∧
  ∀ (db : Nat) (s : State), F32.finite (BitVec.ofNat 32 db) = false →
    exec (.sqgain db) s = .next { s with responses := s.responses ++ [.misuse] }

/-- R55 (U5): VUV and MAG entries of harmonics above L are never read. -/
def Obligations.SqencIgnoresEntriesAboveL : Prop :=
  ∀ (pitch : Nat) (l : BitVec 8) (vuv vuv' : List Bool) (mag mag' : List Nat) (s : State), vuv.take l.toNat = vuv'.take l.toNat → mag.take l.toNat = mag'.take l.toNat →
    exec (.sqenc pitch l vuv mag) s = exec (.sqenc pitch l vuv' mag') s

/-- U9, R141 (log 15): with `PRED.L` out of range, an accepted frame of at least one harmonic stops the machine by name,
unless stage 1 aborts it, which is then its answer. -/
def Obligations.SqencStopsOnAnUnreadablePredictor : Prop :=
  ∀ (pitch : Nat) (l : BitVec 8) (vuv : List Bool) (mag : List Nat) (s : State),
    (s.pred.l < 0 ∨ 56 < s.pred.l) → 1 ≤ l.toNat → l.toNat ≤ 56 →
    (∀ m ∈ mag.take l.toNat, F32.finite (BitVec.ofNat 32 m) = true) →
    exec (.sqenc pitch l vuv mag) s =
      match stage1 Config.chip pitch l.toNat with
      | none => .next ⟨s.toStateOf.commitFrame Config.chip (abortFields Config.chip)⟩
      | some _ => .fault .predictorRange

/-- R152, R205, R206: in a transmission that starts with SQRST and goes on with SQENC commands, the core's `PRED` is that
of a decoder that starts from `PRED_RESET` and receives the V sequence answered, whatever came before. -/
def Obligations.TransmissionTracksTheDecoder : Prop :=
  ∀ (cmds : List Instr) (s t : State), StartsTransmission cmds → (∀ i ∈ cmds.tail, i.opcode = .sqenc) →
    runCommands cmds s = .next t →
    ∃ rs : List Response, t.responses = s.responses ++ .ok [] :: rs ∧
      t.pred = (rs.filterMap voiceOfResponse).foldl (fun p v => (Config.chip.decodeParams v p).2)
        Config.chip.predReset

/-- R161, R20: SQRST sets `PRED` to `PRED_RESET`, leaves `GADJ`, and answers OK with no result; two in a row leave the
state of one. -/
def Obligations.SqrstRestoresPredAlone : Prop :=
  (∀ s : State, exec .sqrst s =
    .next { s with pred := Config.chip.predReset, responses := s.responses ++ [.ok []] }) ∧
  ∀ s t : State, exec .sqrst s = .next t →
    ∃ u, exec .sqrst t = .next u ∧ u.pred = t.pred ∧ u.gadj = t.gadj

/-- R160, R17: SQGAIN of a finite DB stores DB clamped to -20..+20, times log2(10), divided by 20 (log 26 for the order of
the operations), leaves `PRED`, and answers OK with no result. -/
def Obligations.SqgainStoresTheClampedGain : Prop :=
  ∀ (db : Nat) (s : State), F32.finite (BitVec.ofNat 32 db) = true →
    exec (.sqgain db) s = .next { s with
      gadj := F32.div (F32.mul
        (if F32.lt (BitVec.ofNat 32 db) (F32.ofInt (-20)) then F32.ofInt (-20)
          else if F32.lt (F32.ofInt 20) (BitVec.ofNat 32 db) then F32.ofInt 20 else BitVec.ofNat 32 db)
        (Config.log2 (F32.ofInt 10))) (F32.ofInt 20)
      responses := s.responses ++ [.ok []] }

/-- R201: the two resets are observationally equal: every command sequence S is answered alike after power-on and
`SQGAIN g`, and after any history that ends in `SQGAIN g; SQRST` or `SQRST; SQGAIN g`. -/
def Obligations.ResetsAreObservationallyEqual : Prop :=
  ∀ (g : Nat) (s : State) (ending : List Instr), F32.finite (BitVec.ofNat 32 g) = true →
    (ending = [.sqgain g, .sqrst] ∨ ending = [.sqrst, .sqgain g]) →
    ∃ a b : State, runCommands [.sqgain g] State.reset = .next a ∧ runCommands ending s = .next b ∧
      ∀ (S : List Instr) (a' : State), runCommands S a = .next a' →
        ∃ (b' : State) (rs : List Response), runCommands S b = .next b' ∧
          a'.responses = a.responses ++ rs ∧ b'.responses = b.responses ++ rs

/-- R60: ENCODE of an accepted frame is SQENC on that frame and then FECPACK of the V it answered: two responses, the
second the frame of the first's V, and `PRED` as SQENC leaves it (that the host's part is modelled at all is the model's
choice, log 25; L_MAX = 56 is log 4, and that stage 5 can read `PRED` a fact of the reference numerics, log 5). -/
def Obligations.PseudoEncodeIsSqencThenFecpack : Prop :=
  ∀ (pitch : Nat) (l : BitVec 8) (vuv : List Bool) (mag : List Nat) (s : State),
    PredState.InRange 56 s.pred → l.toNat ≤ 56 → (∀ m ∈ mag.take l.toNat, F32.finite (BitVec.ofNat 32 m) = true) →
    ∃ (w : List (EnvRead Num32)) (b : Fields) (t : State),
      envWindow Config.chip s.pred l.toNat = .ok w ∧
      b = sqFields Config.chip ⟨pitch, l.toNat, vuv, mag.map (BitVec.ofNat 32)⟩ w s.pred.gamma s.gadj ∧
      exec (.sqenc pitch l vuv mag) s = .next t ∧
      t.responses = s.responses ++ [.ok (Bits.ofVec (fldPack Config.chip b) ++ encodeFields b)] ∧
      pseudoEncode pitch l vuv mag s = exec (.fecpack (fldPack Config.chip b)) t ∧
      pseudoEncode pitch l vuv mag s =
        .next { s with
          pred := (Config.chip.decodeParams (fldPack Config.chip b) s.pred).2
          responses := s.responses ++
            [.ok (Bits.ofVec (fldPack Config.chip b) ++ encodeFields b),
              .ok (Bits.ofVec (fecPack Config.chip (fldPack Config.chip b)))] }
end

