-- ==== Sys2Proof/Laws/Bits.lean ====
section
/-! SUPPORT. The laws of the bit-field operations: a vector read as a sequence and back, and what writing one
position or one bit does. -/

namespace Sys2Proof.Bits

@[simp] theorem length_ofVec {n : Nat} (x : BitVec n) : (ofVec x).length = n := by
  simp [ofVec]

theorem val_append_singleton (s : List Bool) (b : Bool) : val (s ++ [b]) = 2 * val s + b.toNat := by
  simp [val]

/-- The integer of the first `k` positions of a vector is its leading part. -/
theorem val_prefix {n : Nat} (x : BitVec n) (k : Nat) (hk : k ≤ n) :
    val ((List.range k).map x.getMsbD) = x.toNat / 2 ^ (n - k) := by
  induction k with
  | zero => simp [val, Nat.div_eq_of_lt x.isLt]
  | succ k ih =>
    have hbit : (x.getMsbD k).toNat = x.toNat / 2 ^ (n - (k + 1)) % 2 := by
      have : k < n := hk
      rw [BitVec.getMsbD, decide_eq_true this, Bool.true_and, BitVec.getLsbD, Nat.testBit_eq_decide_div_mod_eq]
      rw [show n - 1 - k = n - (k + 1) by omega]
      rcases Nat.mod_two_eq_zero_or_one (x.toNat / 2 ^ (n - (k + 1))) with h | h <;> simp [h]
    have hdiv : x.toNat / 2 ^ (n - k) = x.toNat / 2 ^ (n - (k + 1)) / 2 := by
      rw [Nat.div_div_eq_div_mul, ← Nat.pow_succ, show (n - (k + 1)).succ = n - k by omega]
    rw [List.range_succ, List.map_append, List.map_singleton, val_append_singleton, ih (by omega), hbit, hdiv]
    omega

/-- The integer of a vector's own positions is its value (R5). -/
@[simp] theorem val_ofVec {n : Nat} (x : BitVec n) : val (ofVec x) = x.toNat := by
  rw [ofVec, val_prefix x n (Nat.le_refl n)]
  simp

/-- A vector is the integer of its own positions (R5). -/
@[simp] theorem vec_ofVec {n : Nat} (x : BitVec n) : vec n (ofVec x) = x := by
  rw [vec, ofVec, val_prefix x n (Nat.le_refl n)]
  simp

theorem setBit_getLsbD {n : Nat} (x : BitVec n) (j k : Nat) (b : Bool) :
    (setBit x j b).getLsbD k = if k = j ∧ j < n then b else x.getLsbD k := by
  unfold setBit
  by_cases hk : k < n
  · by_cases hj : k = j
    · subst hj; cases b <;> simp [hk]
    · cases b <;> simp [hk, hj]
  · have : ¬ (k = j ∧ j < n) := by omega
    rw [if_neg this, BitVec.getLsbD_of_ge _ _ (by omega), BitVec.getLsbD_of_ge _ _ (by omega)]

/-- Writing one position changes that position alone (R4). -/
theorem setAt_getMsbD {n : Nat} (x : BitVec n) (i k : Nat) (b : Bool) (hi : i < n) :
    (setAt x i b).getMsbD k = if k = i then b else x.getMsbD k := by
  by_cases hk : k < n
  · have h := setBit_getLsbD x (n - 1 - i) (n - 1 - k) b
    have e : (n - 1 - k = n - 1 - i ∧ n - 1 - i < n) ↔ k = i := by omega
    simp only [BitVec.getMsbD, hk, decide_true, Bool.true_and]
    rw [show setAt x i b = setBit x (n - 1 - i) b from rfl, h]
    by_cases c : k = i
    · rw [if_pos (e.2 c), if_pos c]
    · rw [if_neg (mt e.1 c), if_neg c]
  · have : ¬ k = i := by omega
    simp [BitVec.getMsbD, hk, this]

/-- A slice reads its own positions (R4). -/
theorem slice_getMsbD {n : Nat} (x : BitVec n) (i len j : Nat) (hj : j < len) (h : i + len ≤ n) :
    (slice x i len).getMsbD j = x.getMsbD (i + j) := by
  have h1 : i + j < n := by omega
  have h2 : len - 1 - j < len := by omega
  simp only [slice, BitVec.getMsbD, hj, h1, decide_true, Bool.true_and, BitVec.getLsbD_extractLsb', h2]
  congr 1
  omega

/-- A field of a payload that holds a vector there is that vector. -/
theorem field_append {n : Nat} (x : BitVec n) (pre post : List Bool) :
    field n pre.length (pre ++ (ofVec x ++ post)) = x := by
  have : ((ofVec x ++ post).take n) = ofVec x := by
    rw [List.take_append_of_le_length (by simp), List.take_of_length_le (by simp)]
  simp [field, this]

end Sys2Proof.Bits
end

