-- ==== Sys2Proof/Laws/Config.lean ====
section
/-! SUPPORT. The machine's configuration meets every constraint of R9. -/

namespace Sys2Proof.Machine

/-- Minimum distance of the reference code (table under R72), over all 4096 data words. -/
theorem chip_minDistance : ∀ d : Data12, d ≠ 0 → 7 ≤ Bits.wt (enc23 Config.chip d) := by
  decide +kernel

theorem chip_code : CodeWf Config.chip where
  topBit := by decide +kernel
  lowBit := by decide +kernel
  cyclic := by decide +kernel
  minDistance := chip_minDistance
  attained := ⟨1#12, by decide +kernel⟩

theorem chip_interleaver : InterleaverWf Config.chip := by
  unfold InterleaverWf
  decide +kernel

theorem chip_fieldMap : FieldMapWf Config.chip := by
  unfold FieldMapWf
  decide +kernel

theorem chip_predReset : PredState.InRange Config.chip.lMax Config.chip.predReset :=
  ⟨by decide +kernel, by decide +kernel, by decide +kernel⟩

/-- The reference values meet their constraints, and the open tables carry theirs (log 10). -/
theorem chip_wf : ConfigWf Config.chip where
  code := chip_code
  interleaver := chip_interleaver
  fieldMap := chip_fieldMap
  tables := Config.openTables.property
  predReset := chip_predReset

/-- What the external decoder returns stays readable (U9). -/
theorem chip_decodeParams_inRange (v : Voice49) (p : PredState Num32)
    (h : PredState.InRange Config.chip.lMax p) :
    PredState.InRange Config.chip.lMax (Config.chip.decodeParams v p).2 :=
  chip_wf.tables.decodeKeepsRange v p h

/-- Every harmonic count the pitch table implies lies in 1..L_MAX (R133). -/
theorem chip_impliedCount_bounds (i : Nat) (a : Int) (h : Config.chip.impliedCount i = some a) :
    1 ≤ a ∧ a ≤ 56 :=
  chip_wf.tables.pitch.bounded i a h

/-- No harmonic count below `L_MIN` is in the pitch table (R58, R132). -/
theorem chip_lMin_le_impliedCount (i : Nat) (a : Int) (h : Config.chip.impliedCount i = some a) :
    (Config.chip.lMin : Int) ≤ a :=
  chip_wf.tables.lMinLeast i a h

end Sys2Proof.Machine
end

