-- ==== Sys2Proof/Laws/State.lean ====
section
/-! SUPPORT. One lemma per field per state operation, so that no proof unfolds a record update. -/

namespace Sys2Proof.Machine

namespace StateOf

variable {N : Type} (cfg : Params N) (s : StateOf N) (r : Response) (payload : List Bool) (p : PredState N) (g : N)
  (rest : List HostInput) (b : Fields)

@[simp] theorem deliver_pred : (s.deliver r).pred = s.pred := rfl
@[simp] theorem deliver_gadj : (s.deliver r).gadj = s.gadj := rfl
@[simp] theorem deliver_inputs : (s.deliver r).inputs = s.inputs := rfl
@[simp] theorem deliver_responses : (s.deliver r).responses = s.responses ++ [r] := rfl

@[simp] theorem respond_pred : (s.respond payload).pred = s.pred := rfl
@[simp] theorem respond_gadj : (s.respond payload).gadj = s.gadj := rfl
@[simp] theorem respond_inputs : (s.respond payload).inputs = s.inputs := rfl
@[simp] theorem respond_responses : (s.respond payload).responses = s.responses ++ [.ok payload] := rfl

@[simp] theorem misuse_pred : (s.misuse).pred = s.pred := rfl
@[simp] theorem misuse_gadj : (s.misuse).gadj = s.gadj := rfl
@[simp] theorem misuse_inputs : (s.misuse).inputs = s.inputs := rfl
@[simp] theorem misuse_responses : (s.misuse).responses = s.responses ++ [.misuse] := rfl

@[simp] theorem setPred_pred : (s.setPred p).pred = p := rfl
@[simp] theorem setPred_gadj : (s.setPred p).gadj = s.gadj := rfl
@[simp] theorem setPred_inputs : (s.setPred p).inputs = s.inputs := rfl
@[simp] theorem setPred_responses : (s.setPred p).responses = s.responses := rfl

@[simp] theorem setGadj_pred : (s.setGadj g).pred = s.pred := rfl
@[simp] theorem setGadj_gadj : (s.setGadj g).gadj = g := rfl
@[simp] theorem setGadj_inputs : (s.setGadj g).inputs = s.inputs := rfl
@[simp] theorem setGadj_responses : (s.setGadj g).responses = s.responses := rfl

@[simp] theorem powerOn_pred : (s.powerOn cfg).pred = cfg.predReset := rfl
@[simp] theorem powerOn_gadj : (s.powerOn cfg).gadj = cfg.num.ofInt 0 := rfl
@[simp] theorem powerOn_inputs : (s.powerOn cfg).inputs = s.inputs := rfl
@[simp] theorem powerOn_responses : (s.powerOn cfg).responses = s.responses := rfl

@[simp] theorem takeInput_pred : (s.takeInput rest).pred = s.pred := rfl
@[simp] theorem takeInput_gadj : (s.takeInput rest).gadj = s.gadj := rfl
@[simp] theorem takeInput_inputs : (s.takeInput rest).inputs = rest := rfl
@[simp] theorem takeInput_responses : (s.takeInput rest).responses = s.responses := rfl

@[simp] theorem commitFrame_pred :
    (s.commitFrame cfg b).pred = (cfg.decodeParams (fldPack cfg b) s.pred).2 := rfl
@[simp] theorem commitFrame_gadj : (s.commitFrame cfg b).gadj = s.gadj := rfl
@[simp] theorem commitFrame_inputs : (s.commitFrame cfg b).inputs = s.inputs := rfl
@[simp] theorem commitFrame_responses :
    (s.commitFrame cfg b).responses =
      s.responses ++ [.ok (Bits.ofVec (fldPack cfg b) ++ encodeFields b)] := rfl

@[simp] theorem reset_pred : (reset cfg).pred = cfg.predReset := rfl
@[simp] theorem reset_gadj : (reset cfg).gadj = cfg.num.ofInt 0 := rfl
@[simp] theorem reset_inputs : (reset cfg).inputs = [] := rfl
@[simp] theorem reset_responses : (reset cfg).responses = [] := rfl

/-- Two states with the same four fields are the same state. -/
theorem ext_fields {s t : StateOf N} (hp : s.pred = t.pred) (hg : s.gadj = t.gadj) (hi : s.inputs = t.inputs)
    (hr : s.responses = t.responses) : s = t := by
  cases s; cases t; simp_all

end StateOf

namespace State

@[simp] theorem reset_toStateOf : State.reset.toStateOf = StateOf.reset Config.chip := rfl

/-- Two states of the machine with the same four fields are the same state. -/
theorem ext_fields {s t : State} (hp : s.pred = t.pred) (hg : s.gadj = t.gadj) (hi : s.inputs = t.inputs)
    (hr : s.responses = t.responses) : s = t := by
  cases s; cases t
  exact congrArg State.mk (StateOf.ext_fields hp hg hi hr)

end State

@[simp] theorem onMachine_next (s : StateOf Num32) : onMachine (.next s) = .next ⟨s⟩ := rfl
@[simp] theorem onMachine_fault (f : Fault) : onMachine (.fault f) = .fault f := rfl
@[simp] theorem onMachine_refused (r : Refusal) : onMachine (.refused r) = .refused r := rfl

/-- An outcome of the machine that goes on is that of the instance. -/
theorem onMachine_eq_next {x : ResultOf Num32} {t : State} : onMachine x = .next t ↔ x = .next t.toStateOf := by
  cases x with
  | next s => exact ⟨fun h => by cases h; rfl, fun h => by cases h; rfl⟩
  | fault f => exact ⟨fun h => (nomatch h), fun h => (nomatch h)⟩
  | refused r => exact ⟨fun h => (nomatch h), fun h => (nomatch h)⟩

end Sys2Proof.Machine
end

