-- ==== Sys2Proof/Laws/Exec.lean ====
section
/-!
SUPPORT. The machine is the instance of `Config.chip`; what a meaning can answer, once for each command whose meaning
has several cases; what a step can do.
-/

namespace Sys2Proof.Machine

variable {N : Type}

/-- The machine's command is that of the instance of `Config.chip`. -/
theorem exec_eq_runInstr (i : Instr) (s : State) : exec i s = onMachine (runInstr Config.chip i s.toStateOf) := by
  cases i <;> rfl

/-- The machine's request is that of the instance of `Config.chip`. -/
theorem runRequest_eq_requestOf (bits : List Bool) (s : State) :
    runRequest bits s = onMachine (requestOf Config.chip bits s.toStateOf) := by
  have hw : decode Config.chip.widths bits = decode Config.widths bits := rfl
  unfold runRequest requestOf
  rw [hw]
  cases decode Config.widths bits with
  | ok i => exact exec_eq_runInstr i s
  | error e => rfl

/-- The machine's step is that of the instance of `Config.chip`. -/
theorem step_eq_stepOf (s : State) : step s = onMachine (stepOf Config.chip s.toStateOf) := by
  unfold step stepOf
  cases s.inputs with
  | nil => rfl
  | cons i rest =>
    cases i with
    | request bits => exact runRequest_eq_requestOf bits ⟨s.toStateOf.takeInput rest⟩
    | powerOnReset => rfl
    | requestCutByReset bits => rfl

/-- SQENC answers MISUSE, or commits the fields of a frame, or stops on a predictor state it cannot read. -/
theorem runSqenc_cases (cfg : Params N) (pitch : Nat) (l : BitVec 8) (vuv : List Bool) (mag : List Nat)
    (s : StateOf N) :
    runSqenc cfg pitch l vuv mag s = .next s.misuse ∨
      (∃ b, runSqenc cfg pitch l vuv mag s = .next (s.commitFrame cfg b)) ∨
      ∃ f, envWindow cfg s.pred l.toNat = .error f ∧ runSqenc cfg pitch l vuv mag s = .fault f := by
  simp only [runSqenc]
  split
  · have hl : (voiceFrame cfg pitch l vuv mag).l = l.toNat := rfl
    rw [hl]
    cases hw : envWindow cfg s.pred l.toNat with
    | ok w => exact .inr (.inl ⟨_, rfl⟩)
    | error f =>
      simp only
      split
      · exact .inr (.inl ⟨_, rfl⟩)
      · exact .inr (.inr ⟨f, rfl, rfl⟩)
  · exact .inl rfl

/-- SQENC on a frame that passes the checks, when `PRED` can be read: the fields of stages 1 to 8 are committed. -/
theorem runSqenc_accepted {cfg : Params N} {pitch : Nat} {l : BitVec 8} {vuv : List Bool} {mag : List Nat}
    {s : StateOf N} {w : List (EnvRead N)} (ha : frameAccepted cfg (voiceFrame cfg pitch l vuv mag) = true)
    (hw : envWindow cfg s.pred l.toNat = .ok w) :
    runSqenc cfg pitch l vuv mag s =
      .next (s.commitFrame cfg (sqFields cfg (voiceFrame cfg pitch l vuv mag) w s.pred.gamma s.gadj)) := by
  have hl : (voiceFrame cfg pitch l vuv mag).l = l.toNat := rfl
  simp only [runSqenc, ha, if_true, hl, hw]

/-- SQENC on a frame that passes the checks and that stage 1 aborts: the abort output, whatever `PRED` is. -/
theorem runSqenc_aborted {cfg : Params N} {pitch : Nat} {l : BitVec 8} {vuv : List Bool} {mag : List Nat}
    {s : StateOf N} (ha : frameAccepted cfg (voiceFrame cfg pitch l vuv mag) = true)
    (h1 : stage1 cfg pitch l.toNat = none) :
    runSqenc cfg pitch l vuv mag s = .next (s.commitFrame cfg (abortFields cfg)) := by
  have hl : (voiceFrame cfg pitch l vuv mag).l = l.toNat := rfl
  have hp : (voiceFrame cfg pitch l vuv mag).pitch = pitch := rfl
  simp only [runSqenc, ha, if_true, hl, hp, h1, sqFields]
  cases envWindow cfg s.pred l.toNat <;> rfl

/-- The interchange form of the reference numerics is the carrier itself. -/
@[simp] theorem numOfBits_chip (x : Nat) : numOfBits Config.chip x = BitVec.ofNat 32 x := rfl

/-- The check of SQGAIN is finiteness of the word. -/
theorem gainAccepted_chip (x : Num32) : gainAccepted Config.chip x = F32.finite x := rfl

/-- SQGAIN stores a finite gain, and refuses any other. -/
theorem runSqgain_cases (cfg : Params N) (db : Nat) (s : StateOf N) :
    (cfg.num.finite (numOfBits cfg db) = true ∧
        runSqgain cfg db s = .next ((s.setGadj (gainOfDb cfg.num (numOfBits cfg db))).respond [])) ∨
      (cfg.num.finite (numOfBits cfg db) = false ∧ runSqgain cfg db s = .next s.misuse) := by
  unfold runSqgain gainAccepted
  cases cfg.num.finite (numOfBits cfg db)
  · exact .inr ⟨rfl, rfl⟩
  · exact .inl ⟨rfl, rfl⟩

/-- What a step of an instance does with the head of the host's inputs. -/
theorem stepOf_cases (cfg : Params N) (s : StateOf N) :
    (s.inputs = [] ∧ stepOf cfg s = .next s) ∨
      (∃ bits rest, s.inputs = .request bits :: rest ∧ stepOf cfg s = requestOf cfg bits (s.takeInput rest)) ∨
      ∃ i rest, s.inputs = i :: rest ∧ (∀ bits, i ≠ .request bits) ∧
        stepOf cfg s = .next ((s.takeInput rest).powerOn cfg) := by
  unfold stepOf
  cases h : s.inputs with
  | nil => exact .inl ⟨rfl, rfl⟩
  | cons i rest =>
    cases i with
    | request bits => exact .inr (.inl ⟨bits, rest, rfl, rfl⟩)
    | powerOnReset => exact .inr (.inr ⟨_, rest, rfl, by simp, rfl⟩)
    | requestCutByReset bits => exact .inr (.inr ⟨_, rest, rfl, by simp, rfl⟩)

/-- A request is a decoded command that runs, or is refused with MISUSE. -/
theorem requestOf_cases (cfg : Params N) (bits : List Bool) (s : StateOf N) :
    (∃ i, decode cfg.widths bits = .ok i ∧ requestOf cfg bits s = runInstr cfg i s) ∨
      ∃ e, decode cfg.widths bits = .error e ∧ requestOf cfg bits s = .next s.misuse := by
  unfold requestOf
  cases decode cfg.widths bits with
  | ok i => exact .inl ⟨i, rfl, rfl⟩
  | error e => exact .inr ⟨e, rfl, rfl⟩

end Sys2Proof.Machine
end

