-- ==== Sys2Proof/Laws/PerInstr.lean ====
section
/-! SUPPORT. The family EncodedLength: the request of a well-formed command has the length R51 asks for. -/

namespace Sys2Proof.Laws.EncodedLength

/-- In every instance the request of a well-formed command is 8 bits and the payload length of its opcode (R51). -/
def Statement (i : Instr) : Prop :=
  ∀ w : Widths, i.wf w = true → (encode w i).length = 8 + i.opcode.payloadLength w

theorem length_encodeFields (b : Fields) : (encodeFields b).length = 49 := by simp [encodeFields]

theorem length_flatMap_ofVec (n : Nat) (mag : List Nat) :
    (mag.flatMap fun m => Bits.ofVec (BitVec.ofNat n m)).length = mag.length * n := by
  induction mag with
  | nil => simp
  | cons x xs ih =>
    rw [List.flatMap_cons, List.length_append, Bits.length_ofVec, ih, List.length_cons, Nat.add_one_mul, Nat.add_comm]

theorem g24enc (d : Data12) : Statement (.g24enc d) := fun _ _ => by
  simp [encode, encodePayload, Instr.opcode, Opcode.payloadLength]
theorem g24dec (cw : Word24) : Statement (.g24dec cw) := fun _ _ => by
  simp [encode, encodePayload, Instr.opcode, Opcode.payloadLength]
theorem g23enc (d : Data12) : Statement (.g23enc d) := fun _ _ => by
  simp [encode, encodePayload, Instr.opcode, Opcode.payloadLength]
theorem g23dec (cw : Word23) : Statement (.g23dec cw) := fun _ _ => by
  simp [encode, encodePayload, Instr.opcode, Opcode.payloadLength]
theorem scrmask (seed : Data12) : Statement (.scrmask seed) := fun _ _ => by
  simp [encode, encodePayload, Instr.opcode, Opcode.payloadLength]
theorem ilvpack (a : Word24) (b : Word23) (c : Word25) : Statement (.ilvpack a b c) := fun _ _ => by
  simp [encode, encodePayload, Instr.opcode, Opcode.payloadLength]
theorem ilvunpk (f : Frame72) : Statement (.ilvunpk f) := fun _ _ => by
  simp [encode, encodePayload, Instr.opcode, Opcode.payloadLength]
theorem fecpack (v : Voice49) : Statement (.fecpack v) := fun _ _ => by
  simp [encode, encodePayload, Instr.opcode, Opcode.payloadLength]
theorem fecunpk (f : Frame72) : Statement (.fecunpk f) := fun _ _ => by
  simp [encode, encodePayload, Instr.opcode, Opcode.payloadLength]
theorem fldpack (b : Fields) : Statement (.fldpack b) := fun _ _ => by
  simp [encode, encodePayload, Instr.opcode, Opcode.payloadLength, length_encodeFields]
theorem fldunpk (v : Voice49) : Statement (.fldunpk v) := fun _ _ => by
  simp [encode, encodePayload, Instr.opcode, Opcode.payloadLength]
theorem sqenc (pitch : Nat) (l : BitVec 8) (vuv : List Bool) (mag : List Nat) :
    Statement (.sqenc pitch l vuv mag) := fun w h => by
  simp only [Instr.wf, Bool.and_eq_true, beq_iff_eq] at h
  simp only [encode, encodePayload, Instr.opcode, Opcode.payloadLength, List.length_append, Bits.length_ofVec,
    length_flatMap_ofVec, h.1.1.2, h.1.2]
theorem sqrst : Statement .sqrst := fun _ _ => by
  simp [encode, encodePayload, Instr.opcode, Opcode.payloadLength]
theorem sqgain (db : Nat) : Statement (.sqgain db) := fun _ _ => by
  simp [encode, encodePayload, Instr.opcode, Opcode.payloadLength]

end Sys2Proof.Laws.EncodedLength
end

