-- ==== Sys2Proof/Laws/Search.lean ====
section
/-! SUPPORT. What `argmin_first` returns (R7): where `lt` is a strict weak order, the smallest index at which the
function attains its minimum. -/

namespace Sys2Proof.Machine

variable {β : Type} {lt : β → β → Bool} {hi : Nat} {f : Fin (hi + 1) → β}

/-- The scan's invariant: if `best` is the first minimum of the indices already seen, the result is that of all. -/
theorem argminLoop_spec
    (irrefl : ∀ i, lt (f i) (f i) = false)
    (trans : ∀ i j k, lt (f i) (f j) = true → lt (f j) (f k) = true → lt (f i) (f k) = true)
    (weak : ∀ i j k, lt (f i) (f j) = true → lt (f k) (f j) = false → lt (f i) (f k) = true)
    (n : Nat) (hn : n ≤ hi) (best : Fin (hi + 1)) (hb : best.val + n ≤ hi)
    (least : ∀ j : Fin (hi + 1), j.val + n ≤ hi → lt (f j) (f best) = false)
    (first : ∀ j : Fin (hi + 1), j < best → lt (f best) (f j) = true) :
    (∀ j, lt (f j) (f (argminLoop lt f n best)) = false) ∧
      ∀ j, j < argminLoop lt f n best → lt (f (argminLoop lt f n best)) (f j) = true := by
  induction n generalizing best with
  | zero => exact ⟨fun j => least j (by omega), first⟩
  | succ n ih =>
    simp only [argminLoop]
    split
    · rename_i hlt
      refine ih (by omega) _ (by simp only; omega) (fun j hj => ?_) (fun j hj => ?_)
      · by_cases e : j = ⟨hi - n, by omega⟩
        · rw [e]; exact irrefl _
        · have hj' : j.val + (n + 1) ≤ hi := by
            have : j.val ≠ hi - n := fun h => e (Fin.ext h)
            omega
          by_contra hc
          have := trans _ _ _ (by simpa using hc) hlt
          rw [least j hj'] at this
          exact absurd this (by decide)
      · have hj' : j.val + (n + 1) ≤ hi := by
          have : j.val < hi - n := hj
          omega
        exact weak _ _ _ hlt (least j hj')
    · rename_i hlt
      refine ih (by omega) best (by omega) (fun j hj => ?_) first
      by_cases e : j = ⟨hi - n, by omega⟩
      · rw [e]; simpa using hlt
      · have : j.val ≠ hi - n := fun h => e (Fin.ext h)
        exact least j (by omega)

/-- `argmin_first` (R7). `weak` says that elements neither of which is less than the other rank alike. -/
theorem argminFirst_spec
    (irrefl : ∀ i, lt (f i) (f i) = false)
    (trans : ∀ i j k, lt (f i) (f j) = true → lt (f j) (f k) = true → lt (f i) (f k) = true)
    (weak : ∀ i j k, lt (f i) (f j) = true → lt (f k) (f j) = false → lt (f i) (f k) = true) :
    (∀ j, lt (f j) (f (argminFirst lt f)) = false) ∧
      ∀ j, j < argminFirst lt f → lt (f (argminFirst lt f)) (f j) = true := by
  refine argminLoop_spec irrefl trans weak hi (Nat.le_refl hi) 0 (by simp) (fun j hj => ?_) (fun j hj => ?_)
  · obtain rfl : j = 0 := Fin.ext (by simp only [Fin.val_zero]; omega)
    exact irrefl _
  · exact absurd hj (by simp)

end Sys2Proof.Machine
end

