-- ==== Sys2Proof/Machine/Printer.lean ====
section
/-!
DEFINITION. The textual form of R59: one command a line, `MNEMONIC operand, operand -> result, result`. It is no
behaviour of the core; a host or a test bench prints with it (log 24).
-/

namespace Sys2Proof.Machine.Printer

/-- How a field is written (R59). -/
inductive Shape where
  /-- An integer: hexadecimal at the field's width. A codeword, mask or block of at most 24 positions takes the same form,
  as the spec's examples write it; R59 gives none for it (DESIGN CHOICE, log 24). -/
  | hex (n : Nat)
  /-- A bit vector of more than 24 positions, and VUV at any length (log 24): a binary string in position order. -/
  | bits (n : Nat)
  /-- The wire frame: nine hexadecimal bytes. -/
  | frame
  deriving DecidableEq, Repr

/-- The length of a field. -/
def Shape.length : Shape → Nat
  | .hex n => n
  | .bits n => n
  | .frame => 72

/-- One hexadecimal digit. -/
def hexDigit (v : Nat) : Char :=
  ['0', '1', '2', '3', '4', '5', '6', '7', '8', '9', 'A', 'B', 'C', 'D', 'E', 'F'].getD v '0'

/-- `digits` hexadecimal digits of a value, most significant first. -/
def hexDigits (digits v : Nat) : String :=
  String.ofList ((List.range digits).map fun i => hexDigit (v / 16 ^ (digits - 1 - i) % 16))

/-- A field's text (R59). -/
def Shape.print : Shape → List Bool → String
  | .hex n, s => "0x" ++ hexDigits ((n + 3) / 4) (Bits.val s)
  | .bits _, s => String.ofList (s.map fun b => if b then '1' else '0')
  | .frame, s => " ".intercalate ((Bits.frameBytes (Bits.vec 72 s)).map fun b => hexDigits 2 b.toNat)

/-- The nine quantizer fields. -/
def fieldShapes : List Shape := [7, 5, 5, 9, 7, 5, 4, 4, 3].map Shape.hex

/-- The operand fields of R53, in order. VUV is binary at every `L_MAX`: R59 gives no form for a bit vector of at most 24
positions, which VUV is in an instance of `L_MAX` up to 24 (DESIGN CHOICE, log 24). A magnitude and DB are the hexadecimal
integer of their interchange form (DESIGN CHOICE, log 24). -/
def operandShapes (w : Widths) : Opcode → List Shape
  | .g24enc | .g23enc | .scrmask => [.hex 12]
  | .g24dec => [.hex 24]
  | .g23dec => [.hex 23]
  | .ilvpack => [.hex 24, .hex 23, .bits 25]
  | .ilvunpk | .fecunpk => [.frame]
  | .fecpack | .fldunpk => [.bits 49]
  | .fldpack => fieldShapes
  | .sqenc =>
    [.hex w.pitchW, .hex 8, .bits w.lMax] ++ List.replicate w.lMax (.hex w.numW)
  | .sqrst => []
  | .sqgain => [.hex w.numW]

/-- The result fields of R53, in order. -/
def resultShapes : Opcode → List Shape
  | .g24enc => [.hex 24]
  | .g24dec => [.hex 12, .hex 3]
  | .g23enc => [.hex 23]
  | .g23dec => [.hex 12, .hex 2]
  | .scrmask => [.hex 23]
  | .ilvpack | .fecpack => [.frame]
  | .ilvunpk => [.hex 24, .hex 23, .bits 25]
  | .fecunpk => [.bits 49, .hex 3]
  | .fldpack => [.bits 49]
  | .fldunpk => fieldShapes
  | .sqenc => .bits 49 :: fieldShapes
  | .sqrst | .sqgain => []

/-- The texts of consecutive fields of a payload. -/
def printShapes : List Shape → List Bool → List String
  | [], _ => []
  | f :: fs, s => f.print (s.take f.length) :: printShapes fs (s.drop f.length)

/-- The mnemonic of an opcode (R53). -/
def mnemonic : Opcode → String
  | .g24enc => "G24ENC"
  | .g24dec => "G24DEC"
  | .g23enc => "G23ENC"
  | .g23dec => "G23DEC"
  | .scrmask => "SCRMASK"
  | .ilvpack => "ILVPACK"
  | .ilvunpk => "ILVUNPK"
  | .fecpack => "FECPACK"
  | .fecunpk => "FECUNPK"
  | .fldpack => "FLDPACK"
  | .fldunpk => "FLDUNPK"
  | .sqenc => "SQENC"
  | .sqrst => "SQRST"
  | .sqgain => "SQGAIN"

/-- A command and its OK result payload as one line (R59). -/
def printLine (w : Widths) (i : Instr) (result : List Bool) : String :=
  let operands := ", ".intercalate (printShapes (operandShapes w i.opcode) (encodePayload w i))
  let results := ", ".intercalate (printShapes (resultShapes i.opcode) result)
  mnemonic i.opcode ++ (if operands = "" then "" else " " ++ operands) ++
    (if results = "" then "" else " -> " ++ results)

end Sys2Proof.Machine.Printer
end

