-- ==== Sys2Proof/Tests/Slice0.lean ====
section
/-!
SUPPORT. The model's own tests and, for every statement with hypotheses, a witness that meets them. Expected values
are the spec's: `95_test_vectors.md` (sections 2 to 9), the examples of the rules, and the patterns of R53.
-/

open Sys2Proof Sys2Proof.Machine

namespace Sys2Proof.Tests

/-- The answer of a step of the machine from a state without responses is the one response `r`. -/
def answers (x : Result) (r : Response) : Bool :=
  match x with
  | .next t => decide (t.responses = [r])
  | _ => false

/-- The step goes on. -/
def goesOn : Result → Bool
  | .next _ => true
  | _ => false

/-- The decoder's answer as an option. -/
def decoded (req : List Bool) : Option Instr := (decode Config.widths req).toOption

/-- The reset state with host inputs waiting. -/
def waiting (inputs : List HostInput) : State := { State.reset with inputs := inputs }

/-- 56 voicing flags that begin with the given ones. -/
def flags (bs : List Bool) : List Bool := bs ++ List.replicate (56 - bs.length) false

/-- 56 magnitudes that begin with the given ones. -/
def mags (ms : List Nat) : List Nat := ms ++ List.replicate (56 - ms.length) 0

/-! WellFormed: an ill-formed term for each check -/

theorem test_wf_accepts_sqenc : (Instr.sqenc 21 8 (flags []) (mags [])).wf Config.widths = true := by decide
theorem test_wf_refuses_short_vuv : (Instr.sqenc 21 8 (List.replicate 55 false) (mags [])).wf Config.widths = false := by
  decide
theorem test_wf_refuses_long_mag : (Instr.sqenc 21 8 (flags []) (List.replicate 57 0)).wf Config.widths = false := by
  decide
theorem test_wf_refuses_wide_pitch : (Instr.sqenc 65536 8 (flags []) (mags [])).wf Config.widths = false := by decide
theorem test_wf_refuses_wide_mag : (Instr.sqenc 21 8 (flags []) (mags [4294967296])).wf Config.widths = false := by
  decide
theorem test_wf_refuses_wide_gain : (Instr.sqgain 4294967296).wf Config.widths = false := by decide

/-! Decoding: one written-out request for every constructor (R53; section 8) -/

theorem test_decode_g24enc : decoded (Bits.ofVec 0b00010000101010111100#20) = some (.g24enc 0xABC#12) := by
  decide +kernel
theorem test_decode_g24dec : decoded (Bits.ofVec 0b00010001001010111101001000111101#32) =
    some (.g24dec 0x2BD23D#24) := by decide +kernel
theorem test_decode_g23enc : decoded (Bits.ofVec 0b00010010000100100011#20) = some (.g23enc 0x123#12) := by
  decide +kernel
theorem test_decode_g23dec : decoded (Bits.ofVec 0b0001001100101011110100100011111#31) =
    some (.g23dec 0x15E91F#23) := by decide +kernel
theorem test_decode_scrmask : decoded (Bits.ofVec 0b00100000010100100110#20) = some (.scrmask 0x526#12) := by
  decide +kernel
theorem test_decode_ilvpack : decoded (Bits.ofVec 0x30ABC23C26F66F555555#80) =
    some (.ilvpack 0xABC23C#24 0x137B37#23 0x1555555#25) := by decide +kernel
theorem test_decode_ilvunpk : decoded (Bits.ofVec 0x314F6583EDAB2743C747#80) =
    some (.ilvunpk 0x4F6583EDAB2743C747#72) := by decide +kernel
theorem test_decode_fecpack :
    decoded (Bits.ofVec 0x40#8 ++ Bits.ofVec 0b1010101111000001001000111010101010101010101010101#49) =
      some (.fecpack (0xABC#12 ++ 0x123#12 ++ 0x1555555#25)) := by decide +kernel
theorem test_decode_fecunpk : decoded (Bits.ofVec 0x414F6583EDAB2743C747#80) =
    some (.fecunpk 0x4F6583EDAB2743C747#72) := by decide +kernel
theorem test_decode_fldpack :
    decoded (Bits.ofVec 0x50#8 ++ Bits.ofVec 0b1010101010101010110010001110001011111110000011101#49) =
      some (.fldpack ⟨85, 10, 21, 0b100100011, 0b1000101, 31, 8, 3, 5⟩) := by decide +kernel
theorem test_decode_fldunpk :
    decoded (Bits.ofVec 0x51#8 ++ Bits.ofVec 0b1010101111000001001000111010101010101010101010101#49) =
      some (.fldunpk (0xABC#12 ++ 0x123#12 ++ 0x1555555#25)) := by decide +kernel
theorem test_decode_sqenc :
    decoded (Bits.ofVec 0x60001508#32 ++ Bits.ofVec 0xF0000000000000#56 ++ Bits.ofVec 0x4180000041800000#64 ++
      List.replicate 1728 false) =
      some (.sqenc 21 8 (flags [true, true, true, true]) (mags [0x41800000, 0x41800000])) := by decide +kernel
theorem test_decode_sqrst : decoded (Bits.ofVec 0b01100001#8) = some .sqrst := by decide +kernel
theorem test_decode_sqgain : decoded (Bits.ofVec 0x6240C0A8C1#40) = some (.sqgain 0x40C0A8C1) := by
  decide +kernel

/-- M1: opcode 0x14 is reserved, whatever the payload (section 7). -/
theorem test_decode_reserved : (decode Config.widths (Bits.ofVec 0x14000#20)).toOption = none := by decide +kernel
/-- M2: G24ENC with a 13-bit payload (section 7). -/
theorem test_decode_wrong_length : (decode Config.widths (Bits.ofVec 0x10ABC#21)).toOption = none := by decide +kernel

/-! The opcode table's numbers (log 22) -/

theorem test_table_g24enc : decodeTableWord 24 0x10ABC = some (.g24enc 0xABC#12) := by decide +kernel
theorem test_table_sqrst : decodeTableWord 8 0x61 = some .sqrst := by decide +kernel
theorem test_table_sqenc_runs : goesOn (step (State.reset.withFetchWord 1880 (0x60 * 2 ^ 1872))) = true := by
  decide +kernel
theorem test_table_step_runs :
    answers (step (State.reset.withFetchWord 24 0x10ABC)) (.ok (Bits.ofVec 0xABC23C#24)) = true := by decide +kernel

/-! The meanings, each from the reset state (sections 2 to 7) -/

theorem test_g23enc : answers (exec (.g23enc 0x123#12) State.reset) (.ok (Bits.ofVec 0x091856#23)) = true := by
  decide +kernel
theorem test_g23enc_top : answers (exec (.g23enc 0x800#12) State.reset) (.ok (Bits.ofVec 0x40063A#23)) = true := by
  decide +kernel
theorem test_g24enc : answers (exec (.g24enc 0x555#12) State.reset) (.ok (Bits.ofVec 0x555D0D#24)) = true := by
  decide +kernel
theorem test_g24enc_even : answers (exec (.g24enc 0x7C0#12) State.reset) (.ok (Bits.ofVec 0x7C00A4#24)) = true := by
  decide +kernel
theorem test_scrmask : answers (exec (.scrmask 0xABC#12) State.reset) (.ok (Bits.ofVec 0x1A6361#23)) = true := by
  decide +kernel
theorem test_scrmask_top : answers (exec (.scrmask 0xFFF#12) State.reset) (.ok (Bits.ofVec 0x059F84#23)) = true := by
  decide +kernel
theorem test_ilvpack :
    answers (exec (.ilvpack 0xABC23C#24 0x137B37#23 0x1555555#25) State.reset)
      (.ok (Bits.ofVec 0xC7E583A9EB2743C747#72)) = true := by decide +kernel
theorem test_ilvunpk :
    answers (exec (.ilvunpk 0x0123456789ABCDEF5A#72) State.reset)
      (.ok (Bits.ofVec 0x00FF43#24 ++ Bits.ofVec 0x61F199#23 ++ Bits.ofVec 0x1355556#25)) = true := by decide +kernel
theorem test_fecpack :
    answers (exec (.fecpack (0x526#12 ++ 0xD2A#12 ++ 0x00002A0#25)) State.reset)
      (.ok (Bits.ofVec 0x686A44A61E941804CC#72)) = true := by decide +kernel
theorem test_fldpack :
    answers (exec (.fldpack ⟨85, 10, 21, 291, 69, 31, 8, 3, 5⟩) State.reset)
      (.ok (Bits.ofVec 0b1010010110101001000110001111100001101101110110101#49)) = true := by decide +kernel
theorem test_fldunpk :
    answers (exec (.fldunpk (0xABC#12 ++ 0x123#12 ++ 0x1555555#25)) State.reset)
      (.ok (encodeFields ⟨82, 22, 25, 37, 26, 21, 10, 5, 5⟩)) = true := by decide +kernel
theorem test_sqrst_keeps_gain :
    exec .sqrst ⟨⟨3, 1#32, [], [7#8]⟩, 5#32, [], []⟩ = .next ⟨Config.chip.predReset, 5#32, [], [.ok []]⟩ := rfl
theorem test_sqgain_refuses_nan : answers (exec (.sqgain 0x7FC00000) State.reset) .misuse = true := by
  decide +kernel
/-- M3: L one above L_MAX. -/
theorem test_sqenc_refuses_l : answers (exec (.sqenc 21 57 (flags []) (mags [])) State.reset) .misuse = true := by
  decide +kernel
/-- M4: MAG[3] is an infinity, L = 8. -/
theorem test_sqenc_refuses_infinity :
    answers (exec (.sqenc 21 8 (flags []) (mags [0, 0, 0x7F800000])) State.reset) .misuse = true := by decide +kernel

/-- Block A of frame v1 with positions 0 to 3 flipped: the smallest of six candidates (section 2). -/
theorem test_dec24_tie : dec24 Config.chip 0x5BC23C#24 = (0x53C#12, 4) := by decide +kernel
/-- Block B of frame v1 under the mask of the wrong U0 (section 5, R209). -/
theorem test_dec23_cascade : dec23 Config.chip (0x137B37#23 ^^^ scrMask 0x53C#12) = (0xFFB#12, 3) := by
  decide +kernel
theorem test_g24dec_tie : exec (.g24dec 0x5BC23C#24) State.reset =
    .next ⟨State.reset.toStateOf.respond (Bits.ofVec 0x53C#12 ++ Bits.ofVec 4#3)⟩ := by
  show execG24dec _ _ = _
  simp only [execG24dec, runG24dec, test_dec24_tie]; rfl
theorem test_g23dec : exec (.g23dec (0x137B37#23 ^^^ 0x6CA1A0#23)) State.reset =
    .next ⟨State.reset.toStateOf.respond (Bits.ofVec 0xFFB#12 ++ Bits.ofVec 3#2)⟩ := by
  have hm : scrMask 0x53C#12 = 0x6CA1A0#23 := by decide +kernel
  show execG23dec _ _ = _
  simp only [execG23dec, runG23dec, ← hm, test_dec23_cascade]; rfl
/-- Section 5: frame v1 with A0 to A3 flipped: U0 and U1 wrong, ERR = 7. -/
theorem test_fecunpk_cascade : exec (.fecunpk 0x4F6D83A9EB2743C747#72) State.reset =
    .next ⟨State.reset.toStateOf.respond (Bits.ofVec (0x53C#12 ++ 0xFFB#12 ++ 0x1555555#25) ++ Bits.ofVec 7#3)⟩ := by
  have hu : ilvUnpack Config.chip 0x4F6D83A9EB2743C747#72 = (0x5BC23C#24, 0x137B37#23, 0x1555555#25) := by
    decide +kernel
  show execFecunpk _ _ = _
  simp only [execFecunpk, runFecunpk, fecUnpack, hu, test_dec24_tie, test_dec23_cascade]; rfl

/-! SpectralQuantizer: frame X2 in the toy configuration T (section 7) -/

/-- The cosine at the arguments frame X2 needs, rounded to binary32, first part. -/
def cosTableA : List (Nat × Nat) :=
  [(0x00000000, 0x3f800000), (0x3f490fdb, 0x3f3504f3), (0x4016cbe4, 0xbf3504f3), (0x3f060a92, 0x3f5db3d7),
   (0x3fc90fdb, 0xb33bbd2e), (0x40278d37, 0xbf5db3d9), (0x3f860a92, 0x3effffff), (0x40490fdb, 0xbf800000),
   (0x40a78d37, 0x3f000006), (0x3e490fdb, 0x3f7b14be), (0x3f16cbe4, 0x3f54db31), (0x3f7b53d2, 0x3f0e39d9),
   (0x3fafede0, 0x3e47c5bc), (0x3fe231d6, 0xbe47c5c2), (0x400a3ae7, 0xbf0e39dc), (0x40235ce2, 0xbf54db32),
   (0x403c7edd, 0xbf7b14bf), (0x3ec90fdb, 0x3f6c835e), (0x3f96cbe4, 0x3ec3ef15), (0x3ffb53d2, 0xbec3ef18),
   (0x402fede0, 0xbf6c8360), (0x406231d6, 0xbf6c835e), (0x408a3ae7, 0xbec3ef0b), (0x40a35ce2, 0x3ec3ef1b),
   (0x40bc7edd, 0x3f6c835f), (0x4083f268, 0xbf0e39d6)]

/-- Second part. -/
def cosTableB : List (Nat × Nat) :=
  [(0x40a9a560, 0x3f0e39d7), (0x40cf585a, 0x3f7b14be), (0x40f50b52, 0x3e47c5d0), (0x410d5f26, 0xbf54db34),
   (0x407b53d2, 0xbf3504f1), (0x40afede0, 0x3f3504f7), (0x40e231d6, 0x3f3504f3), (0x410a3ae7, 0xbf3504fb),
   (0x41235ce2, 0xbf3504ef), (0x413c7edd, 0x3f3504f4), (0x403c7ede, 0xbf7b14bf), (0x409d1463, 0x3e47c5c8),
   (0x40dbe958, 0x3f54db2d), (0x412cc9a0, 0xbe47c5bb), (0x414c341b, 0x3f7b14bc), (0x416b9e95, 0xbf0e39e4),
   (0x4103f268, 0xbec3ef25), (0x4129a560, 0xbec3ef23), (0x414f585a, 0x3f6c835b), (0x41750b52, 0xbf6c835c),
   (0x418d5f26, 0x3ec3ef25), (0x4119f024, 0xbf7b14bd), (0x4145eb9c, 0x3f7b14c1), (0x4171e714, 0xbf54db3a),
   (0x418ef146, 0x3f0e39e9), (0x41a4ef02, 0xbe47c614)]

/-- The cosine of the toy numerics: the table, 0 elsewhere. -/
def toyCos (x : Num32) : Num32 :=
  BitVec.ofNat 32 (((cosTableA ++ cosTableB).lookup x.toNat).getD 0)

/-- `log2` of the toy numerics, right on the powers of two, which are all frame X2 needs. -/
def toyLog2 (x : Num32) : Num32 := F32.ofInt ((x.toNat / 2 ^ 23 : Nat) - 127)

/-- The quotient of two integers. -/
def frac (a b : Int) : Num32 := F32.div (F32.ofInt a) (F32.ofInt b)

/-- A row of a toy sub-band table: one value and three zeros. -/
def toyHoc (a b : Int) : Vector Num32 4 := #v[frac a b, F32.ofInt 0, F32.ofInt 0, F32.ofInt 0]

/-- `(k - 4) / 2` for k in 0..7. -/
def half4 (k : Nat) : Num32 :=
  [0xC0000000, 0xBFC00000, 0xBF800000, 0xBF000000, 0x00000000, 0x3F000000, 0x3F800000, 0x3FC00000].getD k 0

/-- The toy configuration T of `95_test_vectors.md` section 7, as far as SQENC before stage 9 reads it. -/
def toy : Params Num32 where
  num := { F32.numerics with cos := toyCos, log2 := toyLog2 }
  g23Poly := 0xC75#12
  g24Even := true
  ilvA := Config.chip.ilvA
  ilvB := Config.chip.ilvB
  ilvC := Config.chip.ilvC
  fieldMap := Config.chip.fieldMap
  lMax := 12
  pitchW := 16
  lMin := 7
  pitchIndex0 := fun p => (p : Int) - 20
  pitchTable := [40, 41, 41, 42, 43, 44]
  harmCount := fun b => (b.toNat : Int) - 33
  pitchDir := 1
  f0Table := fun b => frac 1 (2 * ((b.toNat : Int) - 32))
  vuvTable := fun n =>
    let z := if n.val ≤ 8 then n.val else n.val - 9
    Bits.vec 8 (List.replicate (8 - z) true ++ List.replicate z false)
  offV := fun _ => F32.ofInt 0
  offUV := fun _ _ => F32.ofInt 1
  gainTable := fun i => frac ((i.val : Int) - 8) 2
  rho := frac 1 2
  subband := fun l => if l = 8 then #v[2, 2, 2, 2] else #v[2, 2, 2, 3]
  prbaA := fun n =>
    #v[half4 (n.val / 64), half4 (n.val / 8 % 8), half4 (n.val % 8)]
  prbaB := fun n =>
    #v[half4 (n.val / 32 % 4 + 2), half4 (n.val / 8 % 4 + 2), half4 (n.val / 2 % 4 + 2), half4 (n.val % 2 + 3)]
  hoc1 := fun n => toyHoc (n.val - 16) 4
  hoc2 := fun n => toyHoc (n.val - 8) 4
  hoc3 := fun n => toyHoc (n.val - 8) 4
  hoc4 := fun n => toyHoc (n.val - 4) 4
  silenceB0 := 124
  decodeParams := fun _ p => (⟨0, 0, [], []⟩, p)
  predReset := ⟨4, F32.ofInt 2, List.replicate 14 (F32.ofInt 0), []⟩

/-- Frame X2. -/
def frameX2 : VoiceFrame Num32 where
  pitch := 25
  l := 9
  vuv := [true, true, true, false, false, false, true, true, false, false, false, false]
  mag := [32, 32, 32, 4, 4, 4, 16, 16].map F32.ofInt ++ [frac 1 2, F32.ofInt 0, F32.ofInt 0, F32.ofInt 0]

/-- The predictor state frame X1 left. -/
def predX2 : PredState Num32 where
  l := 8
  gamma := F32.ofInt 3
  env := [F32.ofInt 0] ++ List.replicate 8 (F32.ofInt 3) ++ List.replicate 5 (F32.ofInt 0)
  rest := []

/-- The sub-bands of stage 6 for a toy frame of fundamental 1/20. -/
def toyBands (frame : VoiceFrame Num32) (p : PredState Num32) : Option (Vector (Subband Num32) 4) :=
  match envWindow toy p frame.l with
  | .ok w => some (stage6 toy frame.l (stage5 toy (stage3 toy frame.l (frac 1 20) (harmonics frame)) w))
  | .error _ => none

/-- The distance of a word from a decimal given in millionths is below two millionths. -/
def near (x : Num32) (millionths : Int) : Bool :=
  F32.lt (F32.abs (F32.sub x (frac millionths 1000000))) (frac 2 1000000)

/-- Stages 1, 2, 4 and 8 of frame X2: b0 = 42, b1 = 1, b2 = 10, b8 = 2. -/
theorem test_sqenc_x2_indices :
    (match envWindow toy predX2 9 with
      | .ok w =>
        let b := sqFields toy frameX2 w predX2.gamma (F32.ofInt 1)
        some (b.b0, b.b1, b.b2, b.b5, b.b8)
      | .error _ => none) = some (42, 1, 10, 0, 2) := by
  decide +kernel

/-- Stages 3, 5, 6 and 7 of frame X2: the eight values G. -/
theorem test_sqenc_x2_prba :
    ((toyBands frameX2 predX2).map fun bands =>
      List.zipWith near (prbaValues toy.num bands)
        [2250000, 614815, 148116, 71058, -393283, 177674, -104355, 232668]) = some (List.replicate 8 true) := by
  decide +kernel

/-! Witnesses: concrete values that meet every hypothesis of a statement together -/

/-! An instance far from the machine's: numbers are integers of 8 bits, L_MAX is 3, the parity odd, the table falling -/

/-- Integers as numerics. -/
def intNum : Numerics Int where
  width := 8
  ofBits := fun x => x.toInt
  finite := fun _ => true
  ofInt := id
  add := (· + ·)
  sub := (· - ·)
  mul := (· * ·)
  div := (· / ·)
  abs := fun x => x.natAbs
  max := max
  log2 := fun x => Nat.log2 x.toNat
  cos := fun _ => 1
  lt := fun x y => decide (x < y)
  floor := id
  pi := 3
  sqrt2 := 1

/-- The instance. -/
def intCfg : Params Int where
  num := intNum
  g23Poly := 0xC75#12
  g24Even := false
  ilvA := Config.chip.ilvA
  ilvB := Config.chip.ilvB
  ilvC := Config.chip.ilvC
  fieldMap := Config.chip.fieldMap
  lMax := 3
  pitchW := 8
  lMin := 1
  pitchIndex0 := fun p => p
  pitchTable := [3, 2, 1]
  harmCount := fun b => b.toNat
  pitchDir := -1
  f0Table := fun _ => 1
  vuvTable := fun n => BitVec.ofNat 8 n
  gainTable := fun i => i
  prbaA := fun n => #v[(n : Int), 0, 0]
  prbaB := fun n => #v[(n : Int), 0, 0, 0]
  hoc1 := fun n => #v[(n : Int), 0, 0, 0]
  hoc2 := fun n => #v[(n : Int), 0, 0, 0]
  hoc3 := fun n => #v[(n : Int), 0, 0, 0]
  hoc4 := fun n => #v[(n : Int), 0, 0, 0]
  offV := fun _ => 0
  offUV := fun _ _ => 1
  rho := 1
  subband := fun L => #v[L, 0, 0, 0]
  silenceB0 := 124
  decodeParams := fun _ p => (⟨0, 0, [], []⟩, { p with gamma := p.gamma + 1 })
  predReset := ⟨0, 0, [0, 0, 0, 0, 0], []⟩

theorem intCfg_impliedCount (i : Nat) (a : Int) (h : intCfg.impliedCount i = some a) : a = 3 - i ∧ i < 3 := by
  match i, h with
  | 0, h => cases h; decide
  | 1, h => cases h; decide
  | 2, h => cases h; decide
  | n + 3, h => cases h

theorem intCfg_tables : intCfg.toOpenTables.Wf intCfg.num intCfg.lMax intCfg.pitchDir where
  lMinRange := by decide
  pitch :=
    { nonempty := by decide
      direction := .inr rfl
      monotonic := fun i j a b hij hi hj => by
        have := intCfg_impliedCount i a hi
        have := intCfg_impliedCount j b hj
        show (-1 : Int) * a ≤ -1 * b
        omega
      noGap := fun i j a b m hi hj ham hmb => by
        have := intCfg_impliedCount i a hi
        have := intCfg_impliedCount j b hj
        obtain rfl | rfl | rfl : m = 1 ∨ m = 2 ∨ m = 3 := by omega
        exacts [⟨2, rfl⟩, ⟨1, rfl⟩, ⟨0, rfl⟩]
      bounded := fun i a h => by
        have := intCfg_impliedCount i a h
        show 1 ≤ a ∧ a ≤ 3
        omega }
  f0Positive := fun _ => rfl
  lMinLeast := fun i a h => by
    have := intCfg_impliedCount i a h
    show (1 : Int) ≤ a
    omega
  subbandSum := fun L _ _ => by simp [intCfg]
  decodeKeepsRange := fun _ _ h => h

theorem intCfg_wf : ConfigWf intCfg where
  code := ⟨chip_code.topBit, chip_code.lowBit, chip_code.cyclic, chip_code.minDistance, chip_code.attained⟩
  interleaver := chip_interleaver
  fieldMap := chip_fieldMap
  tables := intCfg_tables
  predReset := ⟨by decide, by decide, by decide⟩

theorem intCfg_floor : FloorPremise intCfg := fun p l h _ _ h1 hl => by
  show 0 ≤ (p : Int) / l * h ∧ (p : Int) / l * h ≤ p
  have hq : (0 : Int) ≤ (p : Int) / l := Int.ediv_nonneg (by omega) (by omega)
  have hle : (p : Int) / l * h ≤ (p : Int) / l * l := mul_le_mul_of_nonneg_left (by omega) hq
  exact ⟨mul_nonneg hq (by omega), hle.trans (Int.ediv_mul_le _ (by omega))⟩

theorem int_ranks {n : Nat} (err : Fin n → Int) : Ranks intCfg.num.lt err where
  irrefl := fun _ => decide_eq_false (lt_irrefl _)
  trans := fun _ _ _ h1 h2 => decide_eq_true ((of_decide_eq_true h1).trans (of_decide_eq_true h2))
  weak := fun _ _ _ h1 h2 => decide_eq_true ((of_decide_eq_true h1).trans_le (not_lt.1 (of_decide_eq_false h2)))

/-- The request SQENC PITCH = 1, L = 2, VUV = 101, MAG = 4, 5, 255: 8 + 8 + 8 + 3 + 24 bits. -/
def intFrame : List Bool := Bits.ofVec 0x600102#24 ++ Bits.ofVec 0b101#3 ++ Bits.ofVec 0x0405FF#24

theorem intFrame_decodes : decode intCfg.widths intFrame = .ok (.sqenc 1 2 [true, false, true] [4, 5, 255]) := by
  have h : (decode intCfg.widths intFrame).toOption = some (.sqenc 1 2 [true, false, true] [4, 5, 255]) := by
    decide +kernel
  revert h
  cases decode intCfg.widths intFrame with
  | error e => exact fun h => nomatch h
  | ok i => exact fun h => by cases h; rfl

/-- The instance after power-on, with host inputs waiting. -/
def intWaiting (inputs : List HostInput) : StateOf Int := { StateOf.reset intCfg with inputs := inputs }

theorem intWaiting_inv (inputs : List HostInput) : InvOf intCfg (intWaiting inputs) where
  pred := intCfg_wf.predReset
  gadj := .inl rfl
  responses := fun _ h => nomatch h

theorem intFrame_step : stepOf intCfg (intWaiting [.request intFrame]) =
    .next (((intWaiting []).commitFrame intCfg (sqFields intCfg (voiceFrame intCfg 1 2 [true, false, true] [4, 5, 255])
      [⟨0, 0, 0⟩, ⟨0, 0, 0⟩] 0 0))) := by
  have hr : stepOf intCfg (intWaiting [.request intFrame]) = requestOf intCfg intFrame (intWaiting []) := rfl
  rw [hr, requestOf, intFrame_decodes]
  have ha : frameAccepted intCfg (voiceFrame intCfg 1 2 [true, false, true] [4, 5, 255]) = true := by decide
  have hw : envWindow intCfg (intWaiting []).pred (2#8).toNat = .ok [⟨0, 0, 0⟩, ⟨0, 0, 0⟩] := rfl
  exact runSqenc_accepted ha hw

/-! The machine -/

/-- A request that SQENC aborts (L = 0). -/
def abortFrame : Instr := .sqenc 21 0 (flags []) (mags [])

/-- A predictor state in range at the upper boundary. -/
def fullPred : PredState Num32 := ⟨56, 0#32, List.replicate 58 0#32, []⟩

theorem fullPred_inRange : PredState.InRange 56 fullPred := ⟨by decide, by decide, by decide⟩

/-- The state with that predictor. -/
def fullState : State := { State.reset with pred := fullPred }

/-- A predictor state whose `PRED.L` no rule allows. -/
def brokenState (l : Int) : State := { State.reset with pred := ⟨l, 0#32, List.replicate 58 0#32, []⟩ }

/-- The machine's configuration with a pitch table of one entry, whose implied count is 1. -/
def unitCfg : Params Num32 := { Config.chip with toOpenTables := Config.sampleTables, pitchIndex0 := fun _ => 0 }

theorem finite_mags_nil (l : Nat) : ∀ m ∈ (mags []).take l, F32.finite (BitVec.ofNat 32 m) = true := fun m h => by
  have := List.mem_of_mem_take h
  simp only [mags, List.nil_append, List.mem_replicate] at this
  rw [this.2]; decide

theorem decodes_of_decoded {req : List Bool} {i : Instr} (h : decoded req = some i) :
    decode Config.widths req = .ok i := by
  unfold decoded at h
  cases hd : decode Config.widths req with
  | error e => rw [hd] at h; cases h
  | ok j => rw [hd] at h; cases h; rfl

theorem step_request {s : State} {req : List Bool} {rest : List HostInput} {i : Instr}
    (hs : s.inputs = .request req :: rest) (hd : decode Config.widths req = .ok i) :
    step s = exec i ⟨s.toStateOf.takeInput rest⟩ := by
  simp only [step, hs, runRequest, hd]

theorem step_misuse {s : State} {req : List Bool} {rest : List HostInput}
    (hs : s.inputs = .request req :: rest) (hd : (decode Config.widths req).toOption = none) :
    step s = .next ⟨(s.toStateOf.takeInput rest).misuse⟩ := by
  simp only [step, hs, runRequest]
  cases h : decode Config.widths req with
  | error e => rfl
  | ok j => rw [h] at hd; cases hd

theorem witness_DecodeOfEncodeGivesTheCommand :
    (Instr.sqenc 0xFFFF 255 (flags [true]) (mags [0xFFFFFFFF])).wf Config.widths = true ∧
      (Instr.sqenc 255 3 [true, false, true] [1, 2, 255]).wf ⟨8, 3, 8⟩ = true := by
  decide

theorem witness_EncodeOfDecodeGivesTheRequest :
    decode Config.widths (Bits.ofVec 0b00010000101010111100#20) = .ok (.g24enc 0xABC#12) :=
  decodes_of_decoded test_decode_g24enc

/-- A request of no opcode and length, for requests the kernel can look at. -/
theorem no_command {req : List Bool}
    (h : ∀ o ∈ Opcode.all, ¬ (req.take 8 = Bits.ofVec o.byte ∧ req.length = 8 + o.payloadLength Config.widths)) :
    ¬ ∃ o : Opcode, req.take 8 = Bits.ofVec o.byte ∧ req.length = 8 + o.payloadLength Config.widths := by
  rintro ⟨o, ho⟩
  exact h o (by cases o <;> decide) ho

/-- A reserved opcode; a listed opcode one bit too long; one bit too short; a request under 8 bits; an empty one. -/
theorem witness_ReservedOpcodeOrWrongLengthIsMisuse :
    ∀ req ∈ [Bits.ofVec 0x14000#20, Bits.ofVec 0b000100001010101111000#21, Bits.ofVec 0b0001000010101011110#19,
        Bits.ofVec 0b0110000#7, []],
      (waiting [.request req]).inputs = .request req :: [] ∧
        ¬ ∃ o : Opcode, req.take 8 = Bits.ofVec o.byte ∧ req.length = 8 + o.payloadLength Config.widths := by
  intro req h
  refine ⟨rfl, no_command ?_⟩
  revert req
  decide

/-- On the machine, and on an instance of other widths. -/
theorem witness_StepRunsTheDecodedCommand :
    ((waiting [.request (Bits.ofVec 0b01100001#8)]).inputs = .request (Bits.ofVec 0b01100001#8) :: [] ∧
      decode Config.widths (Bits.ofVec 0b01100001#8) = .ok .sqrst) ∧
    ((intWaiting [.request intFrame]).inputs = .request intFrame :: [] ∧
      decode intCfg.widths intFrame = .ok (.sqenc 1 2 [true, false, true] [4, 5, 255])) :=
  ⟨⟨rfl, decodes_of_decoded test_decode_sqrst⟩, rfl, intFrame_decodes⟩

theorem witness_IdleCoreHoldsItsState : fullState.inputs = [] := rfl

/-- Both answers: OK and MISUSE. -/
theorem witness_EveryCommandDeliversOneResponse :
    (∃ t, exec (.g24enc 1) fullState = .next t) ∧ exec (.sqgain 0x7FC00000) fullState = .next ⟨fullState.toStateOf.misuse⟩ :=
  ⟨⟨_, rfl⟩, rfl⟩

/-- A refused request of cause M1 and one of cause M5, each followed by an SQRST. -/
theorem witness_RefusedRequestLeavesNoTrace :
    (∃ s t u : State, s.inputs = .request (Bits.ofVec 0x14000#20) :: [.request (Bits.ofVec 0b01100001#8)] ∧
      step s = .next t ∧ t.responses = s.responses ++ [.misuse] ∧
      step { s with inputs := [.request (Bits.ofVec 0b01100001#8)] } = .next u) ∧
    ∃ s t : State, s.inputs = .request (Bits.ofVec 0x627FC00000#40) :: [] ∧ step s = .next t ∧
      t.responses = s.responses ++ [.misuse] := by
  refine ⟨⟨waiting [.request (Bits.ofVec 0x14000#20), .request (Bits.ofVec 0b01100001#8)], _, _, rfl,
      step_misuse rfl test_decode_reserved, rfl,
      step_request rfl (decodes_of_decoded test_decode_sqrst)⟩, ?_⟩
  have hd : decoded (Bits.ofVec 0x627FC00000#40) = some (.sqgain 0x7FC00000) := by decide +kernel
  exact ⟨waiting [.request (Bits.ofVec 0x627FC00000#40)], ⟨State.reset.toStateOf.misuse⟩, rfl,
    (step_request (rest := []) rfl (decodes_of_decoded hd)).trans rfl, rfl⟩

theorem waiting_inv (inputs : List HostInput) : Inv (waiting inputs) where
  pred := chip_predReset
  gadj := .inl rfl
  responses := fun _ h => nomatch h

/-- The machine, and an instance of other numerics, widths, parity and pitch direction. -/
theorem witness_EveryStepKeepsTheInvariant :
    (∃ s t : State, s.inputs = [.request (Bits.ofVec 0b01100001#8)] ∧ Inv s ∧ step s = .next t) ∧
    ConfigWf intCfg ∧ ∃ t, InvOf intCfg (intWaiting [.request intFrame]) ∧
      stepOf intCfg (intWaiting [.request intFrame]) = .next t :=
  ⟨⟨waiting [.request (Bits.ofVec 0b01100001#8)], _, rfl, waiting_inv _,
    step_request rfl (decodes_of_decoded test_decode_sqrst)⟩, intCfg_wf, _, intWaiting_inv _, intFrame_step⟩

theorem witness_EveryStepFromTheInvariantGoesOn :
    Inv (waiting [.request (Bits.ofVec 0x14000#20), .powerOnReset]) ∧
      ConfigWf intCfg ∧ FloorPremise intCfg ∧ InvOf intCfg (intWaiting [.request intFrame]) :=
  ⟨waiting_inv _, intCfg_wf, intCfg_floor, intWaiting_inv _⟩

/-- A reset between commands, and one during a command. -/
theorem witness_PowerOnResetEndsTheCommand :
    (waiting [.powerOnReset]).inputs = .powerOnReset :: [] ∧
      (waiting [.requestCutByReset [true]]).inputs = .requestCutByReset [true] :: [] ∧
      ∃ bits, HostInput.requestCutByReset [true] = .requestCutByReset bits :=
  ⟨rfl, rfl, [true], rfl⟩

theorem sqgain_six_runs (s : State) : ∃ t, exec (.sqgain 0x40C0A8C1) s = .next t := ⟨_, rfl⟩

theorem witness_OnlySqencAndSqrstWritePred :
    (Instr.sqgain 0x40C0A8C1).opcode ≠ .sqenc ∧ (Instr.sqgain 0x40C0A8C1).opcode ≠ .sqrst ∧
      ∃ t, exec (.sqgain 0x40C0A8C1) fullState = .next t :=
  ⟨by decide, by decide, sqgain_six_runs _⟩

theorem witness_OnlySqgainWritesGadj :
    Instr.sqrst.opcode ≠ .sqgain ∧ ∃ t, exec .sqrst fullState = .next t :=
  ⟨by decide, _, rfl⟩

theorem witness_StatelessCommandsReadAndWriteNoState :
    (Instr.fecunpk 0).opcode ≠ .sqenc ∧ (Instr.fecunpk 0).opcode ≠ .sqrst ∧ (Instr.fecunpk 0).opcode ≠ .sqgain := by
  decide

theorem abortFrame_accepted :
    frameAccepted Config.chip (voiceFrame Config.chip 21 0 (flags []) (mags [])) = true := by decide +kernel

theorem abortFrame_runs (s : State) : ∃ t, exec abortFrame s = .next t :=
  ⟨_, congrArg onMachine (runSqenc_accepted (w := []) abortFrame_accepted rfl)⟩

/-- The full state with one response more. -/
def fullMisuse : State := ⟨fullState.toStateOf.misuse⟩

/-- Two different states that agree on `PRED` and `GADJ`, and SQENC. -/
theorem witness_OutcomeDependsOnPredAndGadjAlone :
    fullState.pred = fullMisuse.pred ∧ fullState.gadj = fullMisuse.gadj ∧ fullState ≠ fullMisuse ∧
      ∃ t, exec abortFrame fullState = .next t :=
  ⟨rfl, rfl, fun h => absurd (congrArg (fun s => s.responses) h) (by decide), abortFrame_runs _⟩

theorem witness_CheckBitsAreALinearRemainder : Config.chip.g23Poly.getLsbD 11 = true := chip_code.topBit

/-- Three errors, at the first, a middle and the last position: the boundary of the bound. -/
theorem witness_UpToThreeErrorsAreCorrected23 : CodeWf Config.chip ∧ Bits.wt 0x400801#23 = 3 :=
  ⟨chip_code, by decide⟩

theorem witness_UpToThreeErrorsAreCorrected24 : CodeWf Config.chip ∧ Bits.wt 0x801001#24 = 3 :=
  ⟨chip_code, by decide⟩

theorem witness_InterleaverIsABijection : InterleaverWf Config.chip := chip_interleaver

theorem witness_FecRoundTripCountsNoError : CodeWf Config.chip ∧ InterleaverWf Config.chip :=
  ⟨chip_code, chip_interleaver⟩

theorem witness_FecCorrectsThreeFlipsPerBlock :
    CodeWf Config.chip ∧ InterleaverWf Config.chip ∧ Bits.wt 0x801001#24 ≤ 3 ∧ Bits.wt 0x400801#23 ≤ 3 :=
  ⟨chip_code, chip_interleaver, by decide, by decide⟩

theorem witness_FecPassesBlockCThrough : InterleaverWf Config.chip := chip_interleaver

theorem witness_FieldLayoutIsABijection : FieldMapWf Config.chip := chip_fieldMap

/-- A decoder that reads the payload through the machine's own layout, and stores b2 as the mean. -/
def agreeingDecoder (b : Fields) (p : PredState Num32) : VoiceFrame Num32 × PredState Num32 :=
  (⟨0, 0, [], []⟩, { p with gamma := F32.ofInt b.b2.toNat })

theorem witness_AgreeingLayoutHandsOverTheChosenFields :
    ∃ cfg : Params Num32, FieldMapWf cfg ∧ FieldMapAgrees cfg agreeingDecoder :=
  ⟨{ Config.chip with decodeParams := fun v p => agreeingDecoder (fldUnpack Config.chip v) p },
    chip_fieldMap, fun _ _ => rfl⟩

/-- Three numbers, two of them equal and least; errors over the integers, which `<` ranks; the eight values R of four
sub-bands of sizes 0 to 3. -/
theorem witness_SearchAnswersTheFirstLeastError :
    (∀ i : Fin 3, F32.isNan (#v[0x40000000#32, 0x3F800000#32, 0x3F800000#32][i]) = false) ∧
      (∀ err : Fin 17 → Int, Ranks intCfg.num.lt err) ∧ (∀ err : Fin 32 → Int, Ranks intCfg.num.lt err) ∧
      (∀ err : Fin 512 → Int, Ranks intCfg.num.lt err) ∧ (∀ err : Fin 128 → Int, Ranks intCfg.num.lt err) ∧
      ∀ i : Fin 4,
        let bands : Vector (Subband Int) 4 := #v[⟨0, []⟩, ⟨1, [5]⟩, ⟨2, [6, 2]⟩, ⟨3, [7, 3, 9]⟩]
        let r : Fin 8 → Int := fun q => #v[(0 : Int), 0, 5, 5, 8, 4, 10, 4][q]
        let c1 := if 1 ≤ bands[i].size then bands[i].coeff.getD 0 (intNum.ofInt 0) else intNum.ofInt 0
        let c2 := if 2 ≤ bands[i].size then bands[i].coeff.getD 1 (intNum.ofInt 0) else intNum.ofInt 0
        r ⟨2 * i.val, by omega⟩ = intNum.add c1 (intNum.mul intNum.sqrt2 c2) ∧
          r ⟨2 * i.val + 1, by omega⟩ = intNum.sub c1 (intNum.mul intNum.sqrt2 c2) :=
  ⟨by decide, int_ranks, int_ranks, int_ranks, int_ranks, by decide⟩

/-- A not-a-number on either side, and the two ends of the range of integers. -/
theorem witness_NumericsOfSmallIntegersAndNan :
    F32.isNan 0x7FC00000#32 = true ∧ F32.isNan 0x7F800001#32 = true ∧ (-112 : Int) ≤ 112 := by
  decide

theorem unitCfg_tables : PitchTablesWf unitCfg.lMax unitCfg.pitchDir unitCfg.toOpenTables := Config.sampleTables_wf.pitch

/-- Stage 1 finds a value, runs out of the table, and the starting index may lie outside it. -/
theorem witness_PitchSearchFindsTheCountOrAborts :
    PitchTablesWf unitCfg.lMax unitCfg.pitchDir unitCfg.toOpenTables ∧ stage1 unitCfg 0 1 = some 0#7 ∧
      stage1 unitCfg 0 2 = none ∧ stage1 unitCfg 0 0 = none :=
  ⟨unitCfg_tables, by decide, by decide, by decide⟩

/-- The walk up and out of the table (L = 2), and the one that stays where it finds L = 1. -/
theorem witness_PitchSearchNeverUsesUpItsBudget :
    PitchTablesWf unitCfg.lMax unitCfg.pitchDir unitCfg.toOpenTables ∧
    ((0 : Int) = unitCfg.pitchIndex0 21 ∧
      ∀ (n : Nat) (a : Int), 0 ≤ (n : Int) → unitCfg.impliedCount (n : Int).toNat = some a → a ≠ (2 : Nat) →
        ((n + 1 : Nat) : Int) = if a < (2 : Nat) then (n : Int) + unitCfg.pitchDir else n - unitCfg.pitchDir) ∧
    ∀ (_ : Nat) (a : Int), (0 : Int) ≤ 0 → unitCfg.impliedCount (0 : Int).toNat = some a → a ≠ (1 : Nat) →
      (0 : Int) = if a < (1 : Nat) then 0 + unitCfg.pitchDir else 0 - unitCfg.pitchDir := by
  refine ⟨unitCfg_tables, ⟨rfl, fun n a _ h _ => ?_⟩, fun _ a _ h ha => ?_⟩
  · obtain rfl := Config.sampleTables_impliedCount _ a h
    rfl
  · exact absurd (Config.sampleTables_impliedCount _ a h) ha

/-- A magnitude below 1, and a frame of a voiced and an unvoiced harmonic. -/
theorem witness_SmallMagnitudesCountAsOne :
    F32.lt 0xC0000000#32 (F32.ofInt 1) = true ∧ [(true, 5), (false, 6)][0]? = some (true, 5) ∧
      [(true, 5), (false, 6)][1]? = some (false, 6) := by
  decide

/-- A frame whose reads succeed; both ends of `PRED.L` and of the harmonic count. -/
theorem witness_EnvelopeReadsStayInRange :
    (envWindow intCfg ⟨3, 0, [9, 1, 2, 3, 4], []⟩ 3 = .ok [⟨1, 2, 0⟩, ⟨2, 3, 0⟩, ⟨3, 4, 0⟩] ∧
      ([5, 6, 7] : List Int).length = 3) ∧
    PredState.InRange 56 fullPred ∧ PredState.InRange 56 { fullPred with l := 0 } ∧ (0 : Nat) ≤ 56 ∧ (56 : Nat) ≤ 56 :=
  ⟨⟨rfl, rfl⟩, fullPred_inRange, ⟨by decide, by decide, by decide⟩, by decide, by decide⟩

theorem witness_SubbandsPartitionTheHarmonics :
    Config.chip.toOpenTables.Wf Config.chip.num Config.chip.lMax Config.chip.pitchDir ∧ 1 ≤ 56 ∧
      56 ≤ Config.chip.lMax ∧ (List.replicate 56 0#32).length = 56 :=
  ⟨chip_wf.tables, by decide, Nat.le_refl _, by decide⟩

/-- A sub-band of size 2, two of size 7 that agree on coefficients 3 to 6 alone, and one of size 3. -/
theorem witness_HigherOrderIndexReadsFourCoefficients :
    (Subband.mk 2 [1, 2] : Subband Nat).size ≤ 2 ∧
      (Subband.mk 7 [1, 2, 3, 4, 5, 6, 7] : Subband Nat).size = (Subband.mk 7 [8, 9, 3, 4, 5, 6, 0] : Subband Nat).size ∧
      ([1, 2, 3, 4, 5, 6, 7].drop 2).take 4 = ([8, 9, 3, 4, 5, 6, 0].drop 2).take 4 ∧
      2 < (Subband.mk 3 [1, 2, 3] : Subband Int).size ∧ (Subband.mk 3 [1, 2, 3] : Subband Int).coeff.length = 3 ∧
      ∀ err : Fin 8 → Int, Ranks intCfg.num.lt err :=
  ⟨by decide, by decide, by decide, by decide, by decide, int_ranks⟩

/-- The largest frame and the empty one; a frame that stage 1 accepts and one that it aborts. -/
theorem witness_SqencCompletesAndReplacesPred :
    (PredState.InRange 56 fullState.pred ∧ (56#8).toNat ≤ 56 ∧ (0#8).toNat ≤ 56 ∧
      ∀ m ∈ (mags []).take 56, F32.finite (BitVec.ofNat 32 m) = true) ∧
    stage1 toy frameX2.pitch frameX2.l = some 42#7 ∧ stage1 toy frameX2.pitch 12 = none :=
  ⟨⟨fullPred_inRange, by decide, by decide, finite_mags_nil 56⟩, by decide, by decide⟩

/-- A value the search of R134 answers implies the count asked for. -/
theorem pitchSearch_some (cfg : Params Num32) (l : Nat) (budget : Nat) (idx : Int) (b0 : BitVec 7)
    (h : pitchSearch cfg l budget idx = some b0) : ∃ i, cfg.impliedCount i = some (l : Int) := by
  induction budget generalizing idx with
  | zero => cases h
  | succ budget ih =>
    unfold pitchSearch at h
    split at h
    · cases h
    · split at h
      · cases h
      · rename_i b hb
        split at h
        · rename_i hc; exact ⟨idx.toNat, by rw [OpenTables.impliedCount, hb]; exact congrArg some hc⟩
        · split at h
          · exact ih _ h
          · exact ih _ h

theorem witness_SqencAbortsWithTheSilenceFields :
    stage1 Config.chip 21 (0#8).toNat = none ∧ (0#8).toNat ≤ 56 ∧ 0 < Config.chip.lMin ∧
      ∀ m ∈ (mags []).take (0#8).toNat, F32.finite (BitVec.ofNat 32 m) = true := by
  refine ⟨?_, by decide, chip_wf.tables.lMinRange.1, finite_mags_nil _⟩
  cases h : stage1 Config.chip 21 (0#8).toNat with
  | none => rfl
  | some b0 =>
    obtain ⟨i, hi⟩ := pitchSearch_some _ _ _ _ _ h
    have := (chip_impliedCount_bounds i _ hi).1
    exact absurd this (by decide)

/-- L = 57; an infinity at the last harmonic of the frame; a gain that is not a number. -/
theorem witness_BadOperandsAreMisuse :
    56 < (57#8).toNat ∧ (∃ m ∈ (mags [0, 0, 0x7F800000]).take (3#8).toNat, F32.finite (BitVec.ofNat 32 m) = false) ∧
      F32.finite 0x7FC00000#32 = false :=
  ⟨by decide, ⟨0x7F800000, by decide, by decide⟩, by decide⟩

/-- Frames that differ in flag 9 and magnitude 9 alone, L = 8. -/
theorem witness_SqencIgnoresEntriesAboveL :
    (flags (List.replicate 8 true)).take (8#8).toNat = (flags (List.replicate 9 true)).take (8#8).toNat ∧
      (mags []).take (8#8).toNat = (mags [0, 0, 0, 0, 0, 0, 0, 0, 0x7FC00000]).take (8#8).toNat ∧
      mags [] ≠ mags [0, 0, 0, 0, 0, 0, 0, 0, 0x7FC00000] := by
  decide

/-- `PRED.L` just below and just above its range. -/
theorem witness_SqencStopsOnAnUnreadablePredictor :
    (brokenState (-1)).pred.l < 0 ∧ 56 < (brokenState 57).pred.l ∧ 1 ≤ (1#8).toNat ∧ (1#8).toNat ≤ 56 ∧
      ∀ m ∈ (mags []).take (1#8).toNat, F32.finite (BitVec.ofNat 32 m) = true :=
  ⟨by decide, by decide, by decide, by decide, finite_mags_nil _⟩

theorem witness_TransmissionTracksTheDecoder :
    StartsTransmission [.sqrst, abortFrame] ∧ (∀ i ∈ [Instr.sqrst, abortFrame].tail, i.opcode = .sqenc) ∧
      ∃ t, runCommands [.sqrst, abortFrame] fullState = .next t := by
  refine ⟨rfl, by decide, ?_⟩
  obtain ⟨t, ht⟩ := abortFrame_runs ⟨(fullState.toStateOf.setPred Config.chip.predReset).respond []⟩
  refine ⟨t, ?_⟩
  show runCommands [abortFrame] _ = _
  simp only [runCommands]
  rw [ht]

theorem witness_SqrstRestoresPredAlone : ∃ t, exec .sqrst fullState = .next t := ⟨_, rfl⟩

/-- Below, inside and above the clamp. -/
theorem witness_SqgainStoresTheClampedGain :
    F32.finite 0xC2200000#32 = true ∧ F32.finite 0x40C0A8C1#32 = true ∧ F32.finite 0x41C80000#32 = true := by
  decide

theorem witness_ResetsAreObservationallyEqual :
    F32.finite 0x40C0A8C1#32 = true ∧
      ∃ a t, runCommands [.sqgain 0x40C0A8C1] State.reset = .next a ∧ runCommands [abortFrame] a = .next t := by
  obtain ⟨t, ht⟩ := abortFrame_runs
    ⟨(State.reset.toStateOf.setGadj (gainOfDb Config.chip.num (numOfBits Config.chip 0x40C0A8C1))).respond []⟩
  refine ⟨by decide, _, t, rfl, ?_⟩
  show runCommands [abortFrame] _ = _
  simp only [runCommands]
  rw [ht]

theorem witness_PseudoEncodeIsSqencThenFecpack :
    PredState.InRange 56 State.reset.pred ∧ (56#8).toNat ≤ 56 ∧ ∀ m ∈ (mags []).take 56, F32.finite (BitVec.ofNat 32 m) = true :=
  ⟨chip_predReset, by decide, finite_mags_nil 56⟩

end Sys2Proof.Tests
end

section
/-!
PROOF. The invariant is kept: one rule for each operation over the state, one lemma for a command, one for a step.
-/

namespace Sys2Proof.Machine

variable {N : Type} {cfg : Params N} {s t : StateOf N}

/-! The state operations and the invariant -/

theorem InvOf.misuse (h : InvOf cfg s) : InvOf cfg s.misuse where
  pred := h.pred
  gadj := h.gadj
  responses := by
    simp only [StateOf.misuse_responses, List.forall_mem_append, List.forall_mem_singleton]
    exact ⟨h.responses, .inl rfl⟩

theorem InvOf.respond (h : InvOf cfg s) (o : Opcode) {payload : List Bool} (hp : payload.length = o.resultLength) :
    InvOf cfg (s.respond payload) where
  pred := h.pred
  gadj := h.gadj
  responses := by
    simp only [StateOf.respond_responses, List.forall_mem_append, List.forall_mem_singleton]
    exact ⟨h.responses, .inr ⟨o, payload, rfl, hp⟩⟩

theorem InvOf.setPred (h : InvOf cfg s) {p : PredState N} (hp : PredState.InRange cfg.lMax p) :
    InvOf cfg (s.setPred p) :=
  ⟨hp, h.gadj, h.responses⟩

theorem InvOf.setGadj (h : InvOf cfg s) {g : N} (hg : GadjLegal cfg g) : InvOf cfg (s.setGadj g) :=
  ⟨h.pred, hg, h.responses⟩

theorem InvOf.takeInput (h : InvOf cfg s) (rest : List HostInput) : InvOf cfg (s.takeInput rest) :=
  ⟨h.pred, h.gadj, h.responses⟩

theorem InvOf.powerOn (hc : ConfigWf cfg) (h : InvOf cfg s) : InvOf cfg (s.powerOn cfg) :=
  (h.setPred hc.predReset).setGadj (.inl rfl)

/-- Stage 9 keeps the invariant: the external decoder returns a readable predictor (U9), the result has 98 bits. -/
theorem InvOf.commitFrame (hc : ConfigWf cfg) (h : InvOf cfg s) (b : Fields) : InvOf cfg (s.commitFrame cfg b) :=
  (h.setPred (hc.tables.decodeKeepsRange _ _ h.pred)).respond .sqenc
    (by simp [Laws.EncodedLength.length_encodeFields, Opcode.resultLength])

/-! Commands, requests, steps -/

theorem runSqenc_keeps_inv (hc : ConfigWf cfg) (hs : InvOf cfg s) {pitch : Nat} {l : BitVec 8} {vuv : List Bool}
    {mag : List Nat} (h : runSqenc cfg pitch l vuv mag s = .next t) : InvOf cfg t := by
  obtain hr | ⟨b, hr⟩ | ⟨f, -, hr⟩ := runSqenc_cases cfg pitch l vuv mag s <;> rw [hr] at h <;> cases h
  · exact hs.misuse
  · exact hs.commitFrame hc b

theorem runSqgain_keeps_inv (hs : InvOf cfg s) {db : Nat} (h : runSqgain cfg db s = .next t) : InvOf cfg t := by
  obtain ⟨hf, hr⟩ | ⟨-, hr⟩ := runSqgain_cases cfg db s <;> rw [hr] at h <;> cases h
  · exact (hs.setGadj (.inr ⟨_, hf, rfl⟩)).respond .sqgain rfl
  · exact hs.misuse

/-- Every command keeps the invariant, in every configuration that meets R9. -/
theorem runInstr_keeps_inv (hc : ConfigWf cfg) (hs : InvOf cfg s) {i : Instr} (h : runInstr cfg i s = .next t) :
    InvOf cfg t := by
  cases i with
  | sqenc pitch l vuv mag => exact runSqenc_keeps_inv hc hs h
  | sqgain db => exact runSqgain_keeps_inv hs h
  | sqrst => cases h; exact (hs.setPred hc.predReset).respond .sqrst rfl
  | fldunpk v => cases h; exact hs.respond .fldunpk (Laws.EncodedLength.length_encodeFields _)
  | g24enc d => cases h; exact hs.respond .g24enc (Bits.length_ofVec _)
  | g24dec cw => cases h; exact hs.respond .g24dec (by simp [Opcode.resultLength])
  | g23enc d => cases h; exact hs.respond .g23enc (Bits.length_ofVec _)
  | g23dec cw => cases h; exact hs.respond .g23dec (by simp [Opcode.resultLength])
  | scrmask seed => cases h; exact hs.respond .scrmask (Bits.length_ofVec _)
  | ilvpack a b c => cases h; exact hs.respond .ilvpack (Bits.length_ofVec _)
  | ilvunpk f => cases h; exact hs.respond .ilvunpk (by simp [Opcode.resultLength])
  | fecpack v => cases h; exact hs.respond .fecpack (Bits.length_ofVec _)
  | fecunpk f => cases h; exact hs.respond .fecunpk (by simp [Opcode.resultLength])
  | fldpack b => cases h; exact hs.respond .fldpack (Bits.length_ofVec _)

theorem requestOf_keeps_inv (hc : ConfigWf cfg) (hs : InvOf cfg s) {bits : List Bool}
    (h : requestOf cfg bits s = .next t) : InvOf cfg t := by
  obtain ⟨i, -, hr⟩ | ⟨e, -, hr⟩ := requestOf_cases cfg bits s <;> rw [hr] at h
  · exact runInstr_keeps_inv hc hs h
  · cases h; exact hs.misuse

/-- Every step keeps the invariant, in every configuration that meets R9. -/
theorem stepOf_keeps_inv (hc : ConfigWf cfg) (hs : InvOf cfg s) (h : stepOf cfg s = .next t) : InvOf cfg t := by
  obtain ⟨-, hr⟩ | ⟨bits, rest, -, hr⟩ | ⟨i, rest, -, -, hr⟩ := stepOf_cases cfg s <;> rw [hr] at h
  · cases h; exact hs
  · exact requestOf_keeps_inv hc (hs.takeInput rest) h
  · cases h; exact (hs.takeInput rest).powerOn hc

/-- Settles O11: the step lemma of every configuration; the machine is that of `Config.chip`. -/
theorem everyStepKeepsTheInvariant : Obligations.EveryStepKeepsTheInvariant := by
  refine ⟨fun _ _ hc _ _ hs h => stepOf_keeps_inv hc hs h, fun s t hs h => ?_⟩
  rw [step_eq_stepOf, onMachine_eq_next] at h
  exact stepOf_keeps_inv chip_wf hs h

/-- A step at a request that decodes runs the command, on the state with that input taken. -/
theorem stepOf_request {req : List Bool} {rest : List HostInput} {i : Instr} (hs : s.inputs = .request req :: rest)
    (hd : decode cfg.widths req = .ok i) : stepOf cfg s = runInstr cfg i (s.takeInput rest) := by
  simp only [stepOf, hs, requestOf, hd]

/-- Settles O5: the step at a request, in every configuration; the machine is that of `Config.chip`. -/
theorem stepRunsTheDecodedCommand : Obligations.StepRunsTheDecodedCommand := by
  refine ⟨fun s req rest i hs hd => ?_, fun _ _ _ _ _ _ => stepOf_request, chip_wf, rfl,
    fun s i => ⟨step_eq_stepOf s, exec_eq_runInstr i s⟩⟩
  rw [step_eq_stepOf, exec_eq_runInstr]
  exact congrArg onMachine (stepOf_request hs hd)

end Sys2Proof.Machine
end

section
/-!
PROOF. Bounded-distance decoding for every code of minimum distance 7 (R75, R76, R78): weight and distance, the check
bits as a linear map, the search for the nearest codeword.
-/

namespace Sys2Proof

/-! Weight and distance (R6) -/

namespace Bits

theorem bitSum_xor_le (n a b : Nat) : bitSum n (a ^^^ b) ≤ bitSum n a + bitSum n b := by
  induction n with
  | zero => simp [bitSum]
  | succ n ih =>
    have hbit : (a ^^^ b) / 2 ^ n % 2 ≤ a / 2 ^ n % 2 + b / 2 ^ n % 2 := by
      simp only [← Nat.toNat_testBit, Nat.testBit_xor]
      cases a.testBit n <;> cases b.testBit n <;> decide
    simp only [bitSum]
    omega

/-- One more bit at the low end adds that bit to the sum. -/
theorem bitSum_two_mul_add (n v b : Nat) (hb : b < 2) : bitSum (n + 1) (2 * v + b) = bitSum n v + b := by
  induction n with
  | zero => simp [bitSum]; omega
  | succ n ih =>
    have hdiv : (2 * v + b) / 2 ^ (n + 1) = v / 2 ^ n := by
      rw [Nat.pow_succ', ← Nat.div_div_eq_div_mul]
      congr 1; omega
    rw [bitSum, ih, hdiv, bitSum]
    omega

variable {n : Nat}

theorem wt_xor_le (x y : BitVec n) : wt (x ^^^ y) ≤ wt x + wt y := by
  simp only [wt, BitVec.toNat_xor]
  exact bitSum_xor_le n _ _

theorem wt_le_wt_append (x : BitVec n) (y : BitVec 1) : wt x ≤ wt (x ++ y) := by
  have hy : y.toNat < 2 := y.isLt
  have happ : (x ++ y).toNat = 2 * x.toNat + y.toNat := by
    rw [BitVec.toNat_append, ← Nat.shiftLeft_add_eq_or_of_lt hy, Nat.shiftLeft_eq]
    omega
  rw [wt, wt, happ, bitSum_two_mul_add n _ _ hy]
  omega

/-- A received word is as far from the codeword sent as the error has bits. -/
theorem dH_xor_self (x e : BitVec n) : dH (x ^^^ e) x = wt e := by
  rw [dH, BitVec.xor_comm x e, BitVec.xor_assoc, BitVec.xor_self, BitVec.xor_zero]

/-- The triangle inequality, for a word moved by an error. -/
theorem dH_le_dH_xor_add_wt (x y e : BitVec n) : dH x y ≤ dH (x ^^^ e) y + wt e := by
  have h : x ^^^ y = (x ^^^ e ^^^ y) ^^^ e := by
    ext i hi; simp only [BitVec.getElem_xor]; cases x[i] <;> cases y[i] <;> cases e[i] <;> rfl
  rw [dH, dH, h]
  exact wt_xor_le _ _

theorem dH_le_dH_append (a b : BitVec n) (p q : BitVec 1) : dH a b ≤ dH (a ++ p) (b ++ q) := by
  rw [dH, dH, BitVec.xor_append]
  exact wt_le_wt_append _ _

end Bits

namespace Machine

variable {N : Type} (cfg : Params N)

/-! The code is linear (R71), so its minimum distance is its minimum weight -/

/-- The division loop of R71 is linear over GF(2), whatever the divisor. -/
theorem polyRem_xor (g n a b : Nat) : polyRem g n (a ^^^ b) = polyRem g n a ^^^ polyRem g n b := by
  induction n generalizing a b with
  | zero => rfl
  | succ n ih =>
    simp only [polyRem, ← ih]
    congr 1
    have hbit (x : Nat) : (x / 2 ^ (n + 11) % 2 = 1) ↔ x.testBit (n + 11) = true := by
      rw [Nat.testBit_eq_decide_div_mod_eq, decide_eq_true_iff]
    simp only [hbit, Nat.testBit_xor]
    cases a.testBit (n + 11) <;> cases b.testBit (n + 11) <;> simp
    · exact Nat.xor_assoc a b _
    · rw [Nat.xor_assoc, Nat.xor_comm b, Nat.xor_assoc]
    · rw [Nat.xor_assoc, Nat.xor_comm b, ← Nat.xor_assoc _ _ b, Nat.xor_self, Nat.zero_xor]

theorem par11_xor (a b : Data12) : par11 cfg (a ^^^ b) = par11 cfg a ^^^ par11 cfg b := by
  simp only [par11, BitVec.toNat_xor, ← Nat.shiftLeft_eq, Nat.shiftLeft_xor_distrib, polyRem_xor]
  exact BitVec.ofNat_xor ..

theorem enc23_xor (a b : Data12) : enc23 cfg (a ^^^ b) = enc23 cfg a ^^^ enc23 cfg b := by
  rw [enc23, enc23, enc23, BitVec.xor_append, par11_xor]

variable {cfg}

/-- Any two codewords of the (23,12) code differ in 7 positions or more (R9). -/
theorem seven_le_dH_enc23 (hc : CodeWf cfg) {a b : Data12} (hab : a ≠ b) : 7 ≤ Bits.dH (enc23 cfg a) (enc23 cfg b) := by
  rw [Bits.dH, ← enc23_xor]
  exact hc.minDistance _ fun h => hab (BitVec.xor_eq_zero_iff.mp h)

/-- So do any two of the (24,12) code, for either sense of the parity bit. -/
theorem seven_le_dH_enc24 (hc : CodeWf cfg) {a b : Data12} (hab : a ≠ b) : 7 ≤ Bits.dH (enc24 cfg a) (enc24 cfg b) :=
  (seven_le_dH_enc23 hc hab).trans (Bits.dH_le_dH_append _ _ _ _)

/-! The nearest codeword -/

/-- A search over distances answers an index of least distance. -/
theorem argminFirst_natLt_le {hi : Nat} (f : Fin (hi + 1) → Nat) (j : Fin (hi + 1)) :
    f (argminFirst natLt f) ≤ f j := by
  have h := (argminFirst_spec (lt := natLt) (f := f) (by simp [natLt]) (by simp only [natLt, decide_eq_true_eq]; omega)
    (by simp only [natLt, decide_eq_true_eq, decide_eq_false_iff_not]; omega)).1 j
  simpa [natLt] using h

/-- In a code of minimum distance 7, no other codeword is as near to a word with up to 3 errors as the one sent. -/
theorem eq_sent_of_dH_le {n : Nat} {enc : Data12 → BitVec n} (hd : ∀ a b, a ≠ b → 7 ≤ Bits.dH (enc a) (enc b))
    {d b : Data12} {e : BitVec n} (he : Bits.wt e ≤ 3)
    (hb : Bits.dH (enc d ^^^ e) (enc b) ≤ Bits.dH (enc d ^^^ e) (enc d)) : b = d := by
  by_contra hne
  have hfar := hd d b (Ne.symm hne)
  have htri := Bits.dH_le_dH_xor_add_wt (enc d) (enc b) e
  rw [Bits.dH_xor_self] at hb
  omega

/-- The search over such a code answers the codeword sent. -/
theorem argminFirst_dH_eq_sent {n : Nat} {enc : Data12 → BitVec n}
    (hd : ∀ a b, a ≠ b → 7 ≤ Bits.dH (enc a) (enc b)) (d : Data12) {e : BitVec n} (he : Bits.wt e ≤ 3) :
    BitVec.ofFin (w := 12) (argminFirst natLt fun i => Bits.dH (enc d ^^^ e) (enc (BitVec.ofFin i))) = d :=
  eq_sent_of_dH_le hd he (argminFirst_natLt_le (hi := 4095)
    (fun i => Bits.dH (enc d ^^^ e) (enc (BitVec.ofFin i))) d.toFin)

/-- Settles O24: minimum distance 7 leaves the codeword sent as the only one within distance 3. -/
theorem upToThreeErrorsAreCorrected23 : Obligations.UpToThreeErrorsAreCorrected23 := by
  intro N cfg hc d e he
  simp only [dec23, argminFirst_dH_eq_sent (fun _ _ => seven_le_dH_enc23 hc) d he, Bits.dH_xor_self]

/-- Settles O25: the parity bit takes nothing from the distance of two codewords. -/
theorem upToThreeErrorsAreCorrected24 : Obligations.UpToThreeErrorsAreCorrected24 := by
  intro N cfg hc d e he
  simp only [dec24, argminFirst_dH_eq_sent (fun _ _ => seven_le_dH_enc24 hc) d he, Bits.dH_xor_self]

end Machine
end Sys2Proof
end

section
/-!
PROOF. The searches of the quantizer (R7, R136, R138, R145, R146) and its cosine transforms (R142, R144): every sum the
model makes by walking a list, as a sum over indices.
-/

namespace Sys2Proof.Machine

variable {N : Type}

/-! `argmin_first` and the order of the reference numerics -/

/-- The search answers the first least index wherever `lt` ranks the errors (R7). -/
theorem Ranks.firstLeast_argminFirst {β : Type} {lt : β → β → Bool} {hi : Nat} {f : Fin (hi + 1) → β}
    (h : Ranks lt f) : FirstLeast lt f (argminFirst lt f) :=
  argminFirst_spec h.irrefl h.trans h.weak

/-- So it does for a function that equals the errors value by value. -/
theorem Ranks.firstLeast_argminFirst_of_eq {β : Type} {lt : β → β → Bool} {hi : Nat} {err f : Fin (hi + 1) → β}
    (h : Ranks lt err) (he : ∀ i, err i = f i) : FirstLeast lt err (argminFirst lt f) :=
  funext he ▸ h.firstLeast_argminFirst

/-- Between numbers the comparison is that of their keys. -/
theorem F32.lt_eq_decide_key {x y : Num32} (hx : F32.isNan x = false) (hy : F32.isNan y = false) :
    F32.lt x y = decide (F32.key x < F32.key y) := by
  simp [F32.lt, hx, hy]

theorem F32.ranks_lt {n : Nat} {f : Fin n → Num32} (h : ∀ i, F32.isNan (f i) = false) : Ranks F32.lt f := by
  have key (i j) : F32.lt (f i) (f j) = decide (F32.key (f i) < F32.key (f j)) := F32.lt_eq_decide_key (h i) (h j)
  constructor <;> simp only [key, decide_eq_true_eq, decide_eq_false_iff_not] <;> omega

/-! Sums over lists as sums over indices -/

/-- R136: the harmonics whose flag disagrees, as a selection of indices. -/
theorem mismatchEnergy_eq (num : Numerics N) (pattern : BitVec 8) (f0 : N) (hs : List (Bool × N)) :
    mismatchEnergy num pattern f0 hs =
      sumAsc num (((List.finRange hs.length).filter fun j : Fin hs.length =>
        decide (hs[j].1 ≠ pattern.getMsbD (bandOf num f0 (j.val + 1)))).map
          fun j : Fin hs.length => num.mul hs[j].2 hs[j].2) := by
  rw [mismatchEnergy, List.mapIdx_eq_ofFn, List.ofFn_eq_map, List.filterMap_map, ← List.filterMap_eq_map,
    List.filterMap_filter]
  congr 1
  refine List.filterMap_congr fun j _ => ?_
  simp

theorem zipWith_eq_map_finRange {α β γ : Type} (f : α → β → γ) {xs : List α} {ys : List β} {k : Nat}
    (hx : xs.length = k) (hy : ys.length = k) :
    List.zipWith f xs ys = (List.finRange k).map fun q : Fin k => f xs[q] ys[q] := by
  apply List.ext_getElem <;> simp [hx, hy]

/-- The indices below `k`, in order, are the first `k`. -/
theorem filter_finRange_val_lt (n k : Nat) :
    (List.finRange n).filter (fun q => decide (q.val < k)) = (List.finRange n).take k := by
  conv_lhs => rw [← List.take_append_drop k (List.finRange n)]
  rw [List.filter_append, List.filter_eq_self.mpr, List.filter_eq_nil_iff.mpr, List.append_nil]
  · intro q hq
    obtain ⟨i, hi, rfl⟩ := List.mem_iff_getElem.mp hq
    simp
  · intro q hq
    obtain ⟨i, hi, rfl⟩ := List.mem_iff_getElem.mp hq
    simp at hi ⊢
    omega

/-! The cosine transform (R142, R144) -/

@[simp] theorem length_cosineTransform (num : Numerics N) (size : Nat) (xs : List N) :
    (cosineTransform num size xs).length = size := by
  simp [cosineTransform]

/-- Coefficient k of the transform of the values `r`. -/
theorem cosineTransform_ofFn_getElem? (num : Numerics N) {size k n : Nat} (hk : k < size) (r : Fin n → N) :
    (cosineTransform num size (List.ofFn r))[k]? = some (num.div
      (sumAsc num ((List.finRange n).map fun j : Fin n => num.mul (r j) (num.cos (num.div
        (num.mul (num.mul num.pi (num.ofInt k))
          (num.sub (num.ofInt (j.val + 1 : Nat)) (num.div (num.ofInt 1) (num.ofInt 2))))
        (num.ofInt size)))))
      (num.ofInt size)) := by
  have hlist : (List.ofFn r).mapIdx (fun j x => num.mul x (num.cos (num.div
      (num.mul (num.mul num.pi (num.ofInt k)) (num.sub (num.ofInt (j + 1)) (halfNum num))) (num.ofInt size)))) =
      (List.finRange n).map fun j : Fin n => num.mul (r j) (num.cos (num.div
        (num.mul (num.mul num.pi (num.ofInt k))
          (num.sub (num.ofInt (j.val + 1 : Nat)) (num.div (num.ofInt 1) (num.ofInt 2))))
        (num.ofInt size))) := by
    apply List.ext_getElem <;> simp [halfNum]
  simp only [cosineTransform, List.getElem?_map, List.getElem?_range hk, Option.map_some, hlist]

theorem toList_eq_of_four {α : Type} (v : Vector α 4) : v.toList = [v[0], v[1], v[2], v[3]] := by
  apply List.ext_getElem
  · simp
  · intro i h _
    simp only [Vector.length_toList] at h
    interval_cases i <;> simp

/-- The eight values R are the pairs of the four sub-bands, one after another (R143). -/
theorem prbaValues_eq (num : Numerics N) {bands : Vector (Subband N) 4} {r : Fin 8 → N}
    (h : ∀ i : Fin 4, combine num bands[i] = [r ⟨2 * i.val, by omega⟩, r ⟨2 * i.val + 1, by omega⟩]) :
    prbaValues num bands = cosineTransform num 8 (List.ofFn r) := by
  have h0 : combine num bands[0] = [r 0, r 1] := h 0
  have h1 : combine num bands[1] = [r 2, r 3] := h 1
  have h2 : combine num bands[2] = [r 4, r 5] := h 2
  have h3 : combine num bands[3] = [r 6, r 7] := h 3
  rw [prbaValues, toList_eq_of_four]
  simp only [List.flatMap_cons, List.flatMap_nil, h0, h1, h2, h3]
  rfl

/-- Settles O42: each search is `argminFirst` over errors that the lemmas above rewrite as sums over indices. -/
theorem searchAnswersTheFirstLeastError : Obligations.SearchAnswersTheFirstLeastError := by
  refine ⟨fun hi f hf => ⟨F32.ranks_lt hf, (F32.ranks_lt hf).firstLeast_argminFirst⟩, fun N cfg => ?_⟩
  refine ⟨fun f0 hs err he hr => ?_, fun l lsa gamma gadj err he hr => ?_, fun g err he hr => ?_,
    fun g err he hr => ?_, fun bands r hbands => ?_⟩
  · refine hr.firstLeast_argminFirst_of_eq fun i => ?_
    rw [he, mismatchEnergy_eq]
    simp only [bandOf, min_comm]
  · exact hr.firstLeast_argminFirst_of_eq he
  · refine hr.firstLeast_argminFirst_of_eq fun i => ?_
    rw [he, squaredError, zipWith_eq_map_finRange (k := 3) _ (by simp) (by simp)]
    simp
  · refine hr.firstLeast_argminFirst_of_eq fun i => ?_
    rw [he, squaredError, zipWith_eq_map_finRange (k := 4) _ (by simp) (by simp)]
    simp [Nat.add_comm 4]
  · have hpairs (i : Fin 4) :
        combine cfg.num bands[i] = [r ⟨2 * i.val, by omega⟩, r ⟨2 * i.val + 1, by omega⟩] := by
      rw [(hbands i).1, (hbands i).2]
      rfl
    rw [prbaValues_eq cfg.num hpairs]
    exact ⟨length_cosineTransform _ _ _, fun m => cosineTransform_ofFn_getElem? cfg.num m.isLt r⟩

/-! Stage 6 (R142) -/

/-- A sub-band of stage 6 is the transform of the residuals after those of the sub-bands before it. -/
theorem stage6_getElem (cfg : Params N) (l : Nat) (t : List N) (i : Fin 4) :
    (stage6 cfg l t)[i] = ⟨(cfg.subband l)[i], cosineTransform cfg.num (cfg.subband l)[i]
      ((t.drop ((cfg.subband l).toList.take i).sum).take (cfg.subband l)[i])⟩ := by
  rw [toList_eq_of_four]
  match i with
  | 0 | 1 | 2 => simp [stage6]
  | 3 => simp [stage6, Nat.add_assoc]

theorem stage6_map_coeff_length (cfg : Params N) (l : Nat) (t : List N) :
    (stage6 cfg l t).toList.map (·.coeff.length) = (cfg.subband l).toList := by
  have hsize (i : Fin 4) : (stage6 cfg l t)[i].coeff.length = (cfg.subband l)[i] := by
    rw [stage6_getElem, length_cosineTransform]
  apply List.ext_getElem
  · simp
  · intro i h _
    simpa using hsize ⟨i, by simpa using h⟩

/-- Four contiguous slices whose sizes add up to the length have those sizes and are the whole list. -/
theorem slices_partition {α : Type} (J : Vector Nat 4) (t : List α) (h : J.toList.sum = t.length) :
    (∀ i : Fin 4, ((t.drop (J.toList.take i).sum).take J[i]).length = J[i]) ∧
      (t.drop (J.toList.take 0).sum).take J[0] ++ (t.drop (J.toList.take 1).sum).take J[1] ++
        (t.drop (J.toList.take 2).sum).take J[2] ++ (t.drop (J.toList.take 3).sum).take J[3] = t := by
  rw [toList_eq_of_four] at h ⊢
  simp only [List.sum_cons, List.sum_nil] at h
  constructor
  · intro i
    match i with
    | 0 | 1 | 2 | 3 => simp; omega
  · simp only [List.take_succ_cons, List.take_zero, List.sum_cons, List.sum_nil, List.drop_zero, Nat.add_zero,
      ← List.take_add, ← Nat.add_assoc]
    exact List.take_of_length_le (by omega)

/-- Settles O48: the slices partition the residuals, and each sub-band is the transform of its slice. -/
theorem subbandsPartitionTheHarmonics : Obligations.SubbandsPartitionTheHarmonics := by
  intro N cfg hw l t hl hmax ht slice
  have hsum : (cfg.subband l).toList.sum = t.length := by rw [hw.subbandSum l hl hmax, ht]
  obtain ⟨hlen, hjoin⟩ := slices_partition (cfg.subband l) t hsum
  refine ⟨stage6_getElem cfg l t, hlen, hjoin, fun i k hk => ?_, ?_⟩
  · rw [stage6_getElem]
    have h := cosineTransform_ofFn_getElem? cfg.num hk fun j : Fin (slice i).length => (slice i)[j]
    rwa [show List.ofFn (fun j : Fin (slice i).length => (slice i)[j]) = slice i from List.ofFn_getElem] at h
  · rw [stage6_map_coeff_length, hsum, ht]

/-! Stage 8 (R146) -/

theorem stage8_of_size_le_two (num : Numerics N) {hi : Nat} (table : Fin (hi + 1) → Vector N 4) {b : Subband N}
    (h : b.size ≤ 2) : stage8 num table b = 0 :=
  if_pos h

theorem stage8_of_two_lt_size (num : Numerics N) {hi : Nat} (table : Fin (hi + 1) → Vector N 4) {b : Subband N}
    (h : 2 < b.size) : stage8 num table b = argminFirst num.lt fun n =>
      squaredError num ((table n).toList.take (min 4 (b.size - 2))) ((b.coeff.drop 2).take (min 4 (b.size - 2))) :=
  if_neg (by omega)

/-- The errors of stage 8, as a sum over the indices of the coefficients compared. -/
theorem squaredError_stage8_eq (num : Numerics N) (row : Vector N 4) {b : Subband N} (hb : b.coeff.length = b.size) :
    squaredError num (row.toList.take (min 4 (b.size - 2))) ((b.coeff.drop 2).take (min 4 (b.size - 2))) =
      sumAsc num (((List.finRange 4).filter fun q => decide (q.val < b.size - 2)).map fun q : Fin 4 =>
        let d := num.sub row[q] (b.coeff.getD (2 + q) (num.ofInt 0))
        num.mul d d) := by
  rw [squaredError, filter_finRange_val_lt]
  congr 1
  apply List.ext_getElem
  · simp [hb]; omega
  · intro i h _
    have hi : 2 + i < b.coeff.length := by simp [hb] at h; omega
    simp [hi]

/-- Settles O49: by the size of the sub-band, up to 2 or above. -/
theorem higherOrderIndexReadsFourCoefficients : Obligations.HigherOrderIndexReadsFourCoefficients := by
  intro N num hi table b b'
  refine ⟨stage8_of_size_le_two num table, fun hsize hcoeff => ?_, fun err hb hlen he hr => ?_⟩
  · have htake : (b.coeff.drop 2).take (min 4 (b.size - 2)) = (b'.coeff.drop 2).take (min 4 (b.size - 2)) := by
      rw [Nat.min_comm, ← List.take_take, hcoeff, List.take_take]
    simp only [stage8, ← hsize, htake]
  · rw [stage8_of_two_lt_size num table hb]
    exact hr.firstLeast_argminFirst_of_eq fun n => (he n).trans (squaredError_stage8_eq num (table n) hlen).symm

end Sys2Proof.Machine
end

section
/-!
PROOF. The exact value of a word of the reference numerics, and how far one rounding can raise it: what R141 asks of
`NUM` follows, since the position of a harmonic is computed with two roundings and stays far below `PRED.L + 1`.
-/

namespace Sys2Proof.Machine.F32

/-- The exact value of a finite word. -/
def value (x : Num32) : ℚ := signedMant x * 2 ^ expo x

/-- A finite word with the sign bit clear. -/
def IsNonneg (x : Num32) : Prop := finite x = true ∧ neg x = false

theorem value_eq_mant {x : Num32} (h : IsNonneg x) : value x = mant x * 2 ^ expo x := by
  simp [value, signedMant, h.2]

theorem value_nonneg {x : Num32} (h : IsNonneg x) : 0 ≤ value x := by
  rw [value_eq_mant h]; positivity

theorem not_isNan_of_finite {x : Num32} (h : finite x = true) : isNan x = false := by
  simp_all [finite, isNan]

theorem not_isInf_of_finite {x : Num32} (h : finite x = true) : isInf x = false := by
  simp_all [finite, isInf]

/-- `floor` of a finite word is the floor of its value (R171). -/
theorem floor_eq_floor_value {x : Num32} (h : finite x = true) : floor x = ⌊value x⌋ := by
  rw [floor, if_pos h, value]
  by_cases he : 0 ≤ expo x
  · obtain ⟨n, hn⟩ := Int.eq_ofNat_of_zero_le he
    rw [if_pos he, hn, Int.toNat_natCast, zpow_natCast]
    exact_mod_cast (Int.floor_intCast (R := ℚ) (signedMant x * 2 ^ n)).symm
  · obtain ⟨n, hn⟩ := Int.eq_ofNat_of_zero_le (show 0 ≤ -expo x by omega)
    rw [if_neg he, hn, Int.toNat_natCast, show expo x = -(n : ℤ) by omega, zpow_neg, zpow_natCast, ← div_eq_mul_inv]
    exact_mod_cast (Rat.floor_intCast_div_natCast (signedMant x) (2 ^ n)).symm

/-! Rounding -/

/-- The word that `round` builds: a significand `q` on the exponent field `E`, which a significand of 2^24 moves on. -/
theorem value_ofNat {E q : Nat} (hq : q ≤ 2 ^ 24) (hE : E = 0 ∨ 2 ^ 23 ≤ q) (hb : E * 2 ^ 23 + q < 0x7F800000) :
    IsNonneg (BitVec.ofNat 32 (E * 2 ^ 23 + q)) ∧
      value (BitVec.ofNat 32 (E * 2 ^ 23 + q)) = q * 2 ^ ((E : ℤ) - 149) := by
  set x : Num32 := BitVec.ofNat 32 (E * 2 ^ 23 + q) with hx
  have hnat : x.toNat = E * 2 ^ 23 + q := by rw [hx, BitVec.toNat_ofNat]; omega
  have hexp : expField x = (E * 2 ^ 23 + q) / 2 ^ 23 % 2 ^ 8 := by rw [expField, hnat]
  have hfrac : fracField x = (E * 2 ^ 23 + q) % 2 ^ 23 := by rw [fracField, hnat]
  have hnn : IsNonneg x := by
    constructor
    · simp only [finite, hexp, bne_iff_ne]; omega
    · rw [neg, BitVec.getLsbD, hnat]
      exact Nat.testBit_lt_two_pow (by omega)
  refine ⟨hnn, ?_⟩
  rw [value_eq_mant hnn]
  obtain hlo | hmid | rfl : q < 2 ^ 23 ∨ (2 ^ 23 ≤ q ∧ q < 2 ^ 24) ∨ q = 2 ^ 24 := by omega
  · obtain rfl : E = 0 := by omega
    have he : expField x = 0 := by omega
    rw [mant, expo, if_pos he, if_pos he, hfrac, show (0 * 2 ^ 23 + q) % 2 ^ 23 = q by omega]
    rfl
  · have he : expField x = E + 1 := by omega
    rw [mant, expo, if_neg (by omega), if_neg (by omega), hfrac, he,
      show 2 ^ 23 + (E * 2 ^ 23 + q) % 2 ^ 23 = q by omega,
      show ((E + 1 : ℕ) : ℤ) - 150 = E - 149 by omega]
  · have he : expField x = E + 2 := by omega
    rw [mant, expo, if_neg (by omega), if_neg (by omega), hfrac, he,
      show 2 ^ 23 + (E * 2 ^ 23 + 2 ^ 24) % 2 ^ 23 = 2 ^ 23 by omega,
      show ((E + 2 : ℕ) : ℤ) - 150 = (E - 149) + 1 by omega, zpow_add_one₀ two_ne_zero]
    push_cast
    ring

theorem roundShift_le (m s : Nat) : roundShift m s ≤ m / 2 ^ s + 1 := by
  simp only [roundShift]
  split <;> omega

theorem le_roundShift (m s : Nat) : m / 2 ^ s ≤ roundShift m s := by
  simp only [roundShift]
  split <;> omega

/-- The shift `round` chooses for a significand `m` on the exponent `e`. -/
def roundingShift (m : Nat) (e : Int) : Int := Max.max ((Nat.log2 m : Int) - 23) (-149 - e)

/-- The significand `round` keeps. -/
def roundedMant (m : Nat) (e : Int) : Nat :=
  if 0 ≤ roundingShift m e then roundShift m (roundingShift m e).toNat
  else m * 2 ^ (-roundingShift m e).toNat

theorem round_eq {m : Nat} (hm : m ≠ 0) {e : Int}
    (hb : (e + roundingShift m e + 149).toNat * 2 ^ 23 + roundedMant m e < 0x7F800000) :
    round false m e = BitVec.ofNat 32 ((e + roundingShift m e + 149).toNat * 2 ^ 23 + roundedMant m e) := by
  simp only [roundedMant, roundingShift] at hb ⊢
  simp only [round, if_neg hm]
  refine (if_neg (Nat.not_le.mpr hb)).trans ?_
  simp [signBit]

/-- The significand kept has at most 24 bits, and 24 unless the word is subnormal. -/
theorem roundedMant_bounds {m : Nat} (hm : m ≠ 0) (e : Int) :
    roundedMant m e ≤ 2 ^ 24 ∧ (roundingShift m e = -149 - e ∨ 2 ^ 23 ≤ roundedMant m e) := by
  have hlow : 2 ^ m.log2 ≤ m := Nat.log2_self_le hm
  have hhigh : m < 2 ^ (m.log2 + 1) := Nat.lt_log2_self
  have hlog : (m.log2 : ℤ) - 23 ≤ roundingShift m e := le_max_left _ _
  have hcases : roundingShift m e = -149 - e ∨ roundingShift m e = m.log2 - 23 := by
    simp only [roundingShift]; omega
  by_cases hs : 0 ≤ roundingShift m e
  · obtain ⟨s, hs'⟩ := Int.eq_ofNat_of_zero_le hs
    rw [roundedMant, if_pos hs, hs', Int.toNat_natCast]
    constructor
    · have hlt : m / 2 ^ s < 2 ^ 24 := by
        rw [Nat.div_lt_iff_lt_mul (by positivity), ← pow_add]
        exact hhigh.trans_le (Nat.pow_le_pow_right (by decide) (by omega))
      have := roundShift_le m s
      omega
    · refine (hs' ▸ hcases).imp_right fun h => le_trans ?_ (le_roundShift m s)
      rw [Nat.le_div_iff_mul_le (by positivity), ← pow_add]
      exact (Nat.pow_le_pow_right (by decide) (by omega)).trans hlow
  · obtain ⟨s, hs'⟩ := Int.eq_ofNat_of_zero_le (show 0 ≤ -roundingShift m e by omega)
    rw [roundedMant, if_neg hs, hs', Int.toNat_natCast]
    constructor
    · calc m * 2 ^ s ≤ 2 ^ (m.log2 + 1) * 2 ^ s := Nat.mul_le_mul_right _ hhigh.le
        _ = 2 ^ (m.log2 + 1 + s) := (pow_add ..).symm
        _ ≤ 2 ^ 24 := Nat.pow_le_pow_right (by decide) (by omega)
    · refine hcases.imp_right fun h => ?_
      calc 2 ^ 23 = 2 ^ (m.log2 + s) := by congr 1; omega
        _ = 2 ^ m.log2 * 2 ^ s := pow_add ..
        _ ≤ m * 2 ^ s := Nat.mul_le_mul_right _ hlow

/-- Without bits to drop the significand is kept as it is. -/
theorem roundedMant_mul_eq {m : Nat} {e : Int} (hs : roundingShift m e ≤ 0) :
    (roundedMant m e : ℚ) * 2 ^ roundingShift m e = m := by
  obtain hz | hneg := hs.eq_or_lt
  · rw [roundedMant, if_pos hz.ge, hz]
    simp [roundShift, Nat.mod_one]
  · obtain ⟨s, hs'⟩ := Int.eq_ofNat_of_zero_le (show 0 ≤ -roundingShift m e by omega)
    rw [roundedMant, if_neg (by omega), hs', Int.toNat_natCast, show roundingShift m e = -(s : ℤ) by omega, zpow_neg,
      zpow_natCast]
    push_cast
    rw [mul_assoc, mul_inv_cancel₀ (by positivity), mul_one]

/-- Rounding raises a significand by at most one unit of the last place kept. -/
theorem roundedMant_mul_le (m : Nat) (e : Int) :
    (roundedMant m e : ℚ) * 2 ^ roundingShift m e ≤ m + 2 ^ roundingShift m e := by
  obtain hs | hs := le_total (roundingShift m e) 0
  · rw [roundedMant_mul_eq hs]
    exact le_add_of_nonneg_right (by positivity)
  · obtain ⟨s, hs'⟩ := Int.eq_ofNat_of_zero_le hs
    rw [roundedMant, if_pos hs, hs', Int.toNat_natCast, zpow_natCast]
    have h : roundShift m s * 2 ^ s ≤ m + 2 ^ s :=
      calc roundShift m s * 2 ^ s ≤ (m / 2 ^ s + 1) * 2 ^ s := Nat.mul_le_mul_right _ (roundShift_le m s)
        _ = m / 2 ^ s * 2 ^ s + 2 ^ s := by rw [Nat.add_mul, Nat.one_mul]
        _ ≤ m + 2 ^ s := Nat.add_le_add_right (Nat.div_mul_le_self m _) _
    exact_mod_cast h

theorem value_zero : value 0#32 = 0 := by
  simp [value, show signedMant 0#32 = 0 by decide]

/-- The exponent of the leading bit of a value below 2^127. -/
theorem log2_add_lt {m : Nat} (hm : m ≠ 0) {e : Int} (hlt : (m : ℚ) * 2 ^ e < 2 ^ 127) : (m.log2 : ℤ) + e < 127 := by
  have hlow : (2 : ℚ) ^ (m.log2 : ℤ) ≤ m := by exact_mod_cast Nat.log2_self_le hm
  have h : (2 : ℚ) ^ ((m.log2 : ℤ) + e) < 2 ^ (127 : ℤ) := by
    rw [zpow_add₀ two_ne_zero]
    exact (mul_le_mul_of_nonneg_right hlow (by positivity)).trans_lt hlt
  exact (zpow_lt_zpow_iff_right₀ one_lt_two).mp h

/-- A value below 2^127 is rounded to a word with the sign bit clear, of the significand kept. -/
theorem value_round {m : Nat} {e : Int} (hlt : (m : ℚ) * 2 ^ e < 2 ^ 127) :
    IsNonneg (round false m e) ∧ value (round false m e) = roundedMant m e * 2 ^ roundingShift m e * 2 ^ e := by
  obtain rfl | hm := eq_or_ne m 0
  · have hkept : roundedMant 0 e = 0 := by
      rw [roundedMant]; split
      · simp [roundShift]
      · exact Nat.zero_mul _
    rw [show round false 0 e = 0#32 from rfl, value_zero, hkept]
    exact ⟨⟨by decide, by decide⟩, by simp⟩
  · have hexp := log2_add_lt hm hlt
    obtain ⟨hq, hunit⟩ := roundedMant_bounds hm e
    have hshift : -149 - e ≤ roundingShift m e ∧ (roundingShift m e = -149 - e ∨ roundingShift m e = m.log2 - 23) := by
      simp only [roundingShift]; omega
    have hb : (e + roundingShift m e + 149).toNat * 2 ^ 23 + roundedMant m e < 0x7F800000 := by omega
    rw [round_eq hm hb]
    obtain ⟨hnn, hv⟩ := value_ofNat hq (hunit.imp_left fun h => by omega) hb
    refine ⟨hnn, hv.trans ?_⟩
    rw [mul_assoc, ← zpow_add₀ two_ne_zero]
    congr 2
    omega

/-- One unit of the last place kept: a 2^23rd of the value at most, or the unit 2^-149 of the subnormal words. -/
theorem lastPlace_le {m : Nat} (hm : m ≠ 0) (e : Int) :
    (2 : ℚ) ^ (roundingShift m e + e) ≤ m * 2 ^ e * 2 ^ (-23 : ℤ) + 2 ^ (-149 : ℤ) := by
  obtain h | h : roundingShift m e + e = -149 ∨ roundingShift m e + e = (m.log2 : ℤ) + e + -23 := by
    simp only [roundingShift]; omega
  · rw [h]
    exact le_add_of_nonneg_left (by positivity)
  · have hlow : (2 : ℚ) ^ (m.log2 : ℤ) ≤ m := by exact_mod_cast Nat.log2_self_le hm
    rw [h, zpow_add₀ two_ne_zero, zpow_add₀ two_ne_zero]
    exact le_add_of_le_of_nonneg (by gcongr) (by positivity)

/-- One rounding raises a value by at most one unit of the last place. -/
theorem round_le {m : Nat} {e : Int} (hlt : (m : ℚ) * 2 ^ e < 2 ^ 127) :
    value (round false m e) ≤ m * 2 ^ e * (1 + 2 ^ (-23 : ℤ)) + 2 ^ (-149 : ℤ) := by
  obtain rfl | hm := eq_or_ne m 0
  · rw [show round false 0 e = 0#32 from rfl, value_zero]
    positivity
  · calc value (round false m e) = roundedMant m e * 2 ^ roundingShift m e * 2 ^ e := (value_round hlt).2
      _ ≤ (m + 2 ^ roundingShift m e) * 2 ^ e := mul_le_mul_of_nonneg_right (roundedMant_mul_le m e) (by positivity)
      _ = m * 2 ^ e + 2 ^ (roundingShift m e + e) := by rw [add_mul, zpow_add₀ two_ne_zero]
      _ ≤ m * 2 ^ e + (m * 2 ^ e * 2 ^ (-23 : ℤ) + 2 ^ (-149 : ℤ)) := add_le_add_right (lastPlace_le hm e) _
      _ = m * 2 ^ e * (1 + 2 ^ (-23 : ℤ)) + 2 ^ (-149 : ℤ) := by ring

/-! Integers, products and quotients -/

/-- An integer of up to 24 bits is exact (R171). -/
theorem value_ofInt {p : Nat} (hp : p < 2 ^ 24) : IsNonneg (ofInt p) ∧ value (ofInt p) = p := by
  have hround : ofInt p = round false p 0 := by rw [ofInt, decide_eq_false (by omega), Int.natAbs_natCast]
  have hlt : (p : ℚ) * 2 ^ (0 : ℤ) < 2 ^ 127 := by
    rw [zpow_zero, mul_one]
    exact_mod_cast hp.trans (by decide)
  obtain ⟨hnn, hv⟩ := value_round hlt
  have hs : roundingShift p 0 ≤ 0 := by
    have hlog : p.log2 < 24 := by
      obtain rfl | h0 := eq_or_ne p 0
      · decide
      · exact (Nat.log2_lt h0).mpr hp
    simp only [roundingShift]
    omega
  rw [hround, hv, roundedMant_mul_eq hs, zpow_zero, mul_one]
  exact ⟨hnn, rfl⟩

theorem mul_le {x y : Num32} (hx : IsNonneg x) (hy : IsNonneg y) (hlt : value x * value y < 2 ^ 127) :
    IsNonneg (mul x y) ∧ value (mul x y) ≤ value x * value y * (1 + 2 ^ (-23 : ℤ)) + 2 ^ (-149 : ℤ) := by
  have hround : mul x y = round false (mant x * mant y) (expo x + expo y) := by
    simp [mul, not_isNan_of_finite hx.1, not_isNan_of_finite hy.1, not_isInf_of_finite hx.1,
      not_isInf_of_finite hy.1, hx.2, hy.2]
  have hval : value x * value y = ((mant x * mant y : ℕ) : ℚ) * 2 ^ (expo x + expo y) := by
    rw [value_eq_mant hx, value_eq_mant hy, zpow_add₀ two_ne_zero]
    push_cast
    ring
  rw [hval] at hlt ⊢
  exact hround ▸ ⟨(value_round hlt).1, round_le hlt⟩

theorem mant_lt (x : Num32) : mant x < 2 ^ 24 := by
  have hf : fracField x < 2 ^ 23 := Nat.mod_lt _ (by decide)
  rw [mant]
  split <;> omega

/-- The quotient that `div` rounds, with the bit that tells whether a rest remains. -/
def stickyQuotient (a b : Nat) : Nat := 2 * (a * 2 ^ 50 / b) + if a * 2 ^ 50 % b = 0 then 0 else 1

/-- It is above the true quotient by a 2^27th at most. -/
theorem stickyQuotient_le {a b : Nat} (hb : b ≠ 0) (hb24 : b < 2 ^ 24) :
    (stickyQuotient a b : ℚ) ≤ a / b * 2 ^ 51 * (1 + 2 ^ (-27 : ℤ)) := by
  obtain rfl | ha := eq_or_ne a 0
  · simp [stickyQuotient]
  · have hquot : ((a * 2 ^ 50 / b : ℕ) : ℚ) ≤ a / b * 2 ^ 50 := by
      calc ((a * 2 ^ 50 / b : ℕ) : ℚ) ≤ ((a * 2 ^ 50 : ℕ) : ℚ) / b := Nat.cast_div_le
        _ = a / b * 2 ^ 50 := by push_cast; ring
    have hsticky : ((if a * 2 ^ 50 % b = 0 then 0 else 1 : ℕ) : ℚ) ≤ 1 := by split <;> simp
    have hfloor : (1 : ℚ) / 2 ^ 24 ≤ a / b := by
      have ha1 : (1 : ℚ) ≤ a := by exact_mod_cast Nat.pos_of_ne_zero ha
      have hb1 : (b : ℚ) ≤ 2 ^ 24 := by exact_mod_cast hb24.le
      have hb0 : (0 : ℚ) < b := by exact_mod_cast Nat.pos_of_ne_zero hb
      gcongr
    rw [stickyQuotient, Nat.cast_add, Nat.cast_mul]
    push_cast at *
    norm_num at *
    linarith

theorem div_le {x y : Num32} (hx : IsNonneg x) (hy : IsNonneg y) (hy0 : value y ≠ 0)
    (hlt : value x / value y * (1 + 2 ^ (-27 : ℤ)) < 2 ^ 127) :
    IsNonneg (div x y) ∧
      value (div x y) ≤ value x / value y * (1 + 2 ^ (-27 : ℤ)) * (1 + 2 ^ (-23 : ℤ)) + 2 ^ (-149 : ℤ) := by
  have hm0 : mant y ≠ 0 := fun h => hy0 (by rw [value_eq_mant hy, h, Nat.cast_zero, zero_mul])
  have hround : div x y = round false (stickyQuotient (mant x) (mant y)) (expo x - expo y - 51) := by
    simp [div, stickyQuotient, not_isNan_of_finite hx.1, not_isNan_of_finite hy.1, not_isInf_of_finite hx.1,
      not_isInf_of_finite hy.1, hx.2, hy.2, hm0]
  have hval : (stickyQuotient (mant x) (mant y) : ℚ) * 2 ^ (expo x - expo y - 51) ≤
      value x / value y * (1 + 2 ^ (-27 : ℤ)) := by
    calc (stickyQuotient (mant x) (mant y) : ℚ) * 2 ^ (expo x - expo y - 51)
        ≤ (mant x / mant y * 2 ^ 51 * (1 + 2 ^ (-27 : ℤ))) * 2 ^ (expo x - expo y - 51) :=
          mul_le_mul_of_nonneg_right (stickyQuotient_le hm0 (mant_lt y)) (by positivity)
      _ = value x / value y * (1 + 2 ^ (-27 : ℤ)) := by
          rw [value_eq_mant hx, value_eq_mant hy, zpow_sub₀ two_ne_zero, zpow_sub₀ two_ne_zero]
          field_simp
  have hlt' := hval.trans_lt hlt
  rw [hround]
  refine ⟨(value_round hlt').1, (round_le hlt').trans ?_⟩
  gcongr

/-- The computed position of harmonic h of l in an envelope of p harmonics has its floor in 0..p (R141): it is p/l * h
up to two roundings, and p/l * h is at most p. -/
theorem floor_position {p l h : Nat} (hp : p ≤ 56) (hl : l ≤ 56) (hh : 1 ≤ h) (hhl : h ≤ l) :
    0 ≤ floor (mul (div (ofInt p) (ofInt l)) (ofInt h)) ∧ floor (mul (div (ofInt p) (ofInt l)) (ofInt h)) ≤ p := by
  obtain ⟨hpn, hpv⟩ := value_ofInt (p := p) (by omega)
  obtain ⟨hln, hlv⟩ := value_ofInt (p := l) (by omega)
  obtain ⟨hhn, hhv⟩ := value_ofInt (p := h) (by omega)
  have hp' : (p : ℚ) ≤ 56 := by exact_mod_cast hp
  have hh' : (h : ℚ) ≤ 56 := by exact_mod_cast hhl.trans hl
  have hl' : (1 : ℚ) ≤ l := by exact_mod_cast hh.trans hhl
  have hratio : (p : ℚ) / l * h ≤ p := by
    rw [div_mul_eq_mul_div, div_le_iff₀ (by linarith)]
    gcongr
  have hquot : (p : ℚ) / l ≤ p := div_le_self (by positivity) hl'
  obtain ⟨hdn, hdv⟩ := div_le hpn hln (by rw [hlv]; linarith) (by rw [hpv, hlv]; norm_num; linarith)
  rw [hpv, hlv] at hdv
  have hprod : value (div (ofInt p) (ofInt l)) * h ≤
      p * (1 + 2 ^ (-27 : ℤ)) * (1 + 2 ^ (-23 : ℤ)) + 2 ^ (-149 : ℤ) * 56 := by
    calc value (div (ofInt p) (ofInt l)) * h
        ≤ (p / l * (1 + 2 ^ (-27 : ℤ)) * (1 + 2 ^ (-23 : ℤ)) + 2 ^ (-149 : ℤ)) * h := by gcongr
      _ = p / l * h * (1 + 2 ^ (-27 : ℤ)) * (1 + 2 ^ (-23 : ℤ)) + 2 ^ (-149 : ℤ) * h := by ring
      _ ≤ _ := by gcongr
  obtain ⟨hmn, hmv⟩ := mul_le hdn hhn (by rw [hhv]; refine hprod.trans_lt ?_; norm_num; linarith)
  rw [hhv] at hmv
  rw [floor_eq_floor_value hmn.1]
  refine ⟨Int.floor_nonneg.mpr (value_nonneg hmn), Int.lt_add_one_iff.mp (Int.floor_lt.mpr ?_)⟩
  push_cast
  norm_num at hprod hmv
  linarith

end Sys2Proof.Machine.F32

namespace Sys2Proof.Machine

/-- The reference numerics meet the premise R141 names (log 5). -/
theorem chip_floorPremise : FloorPremise Config.chip :=
  fun _ _ _ hp hl hh hhl => F32.floor_position hp hl hh hhl

end Sys2Proof.Machine
end

section
/-!
PROOF. Progress: from a state that meets the invariant, stage 5 can read `PRED` for every accepted frame, so no command
stops.
-/

namespace Sys2Proof.Machine

variable {N : Type} {cfg : Params N}

theorem allSome_eq_some {α : Type} {os : List (Option α)} (h : ∀ o ∈ os, ∃ x, o = some x) :
    ∃ xs, allSome os = some xs := by
  induction os with
  | nil => exact ⟨[], rfl⟩
  | cons o os ih =>
    obtain ⟨⟨x, rfl⟩, hos⟩ := List.forall_mem_cons.mp h
    obtain ⟨xs, hxs⟩ := ih hos
    exact ⟨x :: xs, by rw [allSome, hxs]; rfl⟩

/-- A whole envelope can be read at 0..L_MAX+1 (R141). -/
theorem envAt_eq_some {p : PredState N} (hp : PredState.InRange cfg.lMax p) {i : Int} (h0 : 0 ≤ i)
    (h1 : i ≤ cfg.lMax + 1) : ∃ x, envAt cfg p i = some x := by
  obtain ⟨-, -, hlen⟩ := hp
  have hi : (if i = 0 then 1 else i.toNat) < p.env.length := by split <;> omega
  exact ⟨p.env[if i = 0 then 1 else i.toNat], by rw [envAt, if_pos ⟨h0, h1⟩, List.getElem?_eq_getElem hi]⟩

/-- A read succeeds where the position of the harmonic has a floor in 0..L_MAX (R141). -/
theorem envRead_eq_some {p : PredState N} (hp : PredState.InRange cfg.lMax p) {ratio : N} {l : Nat}
    (h0 : 0 ≤ cfg.num.floor (cfg.num.mul ratio (cfg.num.ofInt l)))
    (h1 : cfg.num.floor (cfg.num.mul ratio (cfg.num.ofInt l)) ≤ cfg.lMax) : ∃ r, envRead cfg p ratio l = some r := by
  obtain ⟨lo, hlo⟩ := envAt_eq_some hp h0 (by omega)
  obtain ⟨hi, hhi⟩ :=
    envAt_eq_some hp (i := cfg.num.floor (cfg.num.mul ratio (cfg.num.ofInt l)) + 1) (by omega) (by omega)
  simp only [envRead, hlo, hhi]
  exact ⟨_, rfl⟩

/-- Stage 5 can read a predictor in range for every frame of up to L_MAX harmonics (R141). -/
theorem envWindow_eq_ok (hf : FloorPremise cfg) {p : PredState N} (hp : PredState.InRange cfg.lMax p) {l : Nat}
    (hl : l ≤ cfg.lMax) : ∃ w, envWindow cfg p l = .ok w := by
  obtain rfl | hl0 := eq_or_ne l 0
  · exact ⟨[], rfl⟩
  · obtain ⟨hp0, hp1, -⟩ := id hp
    obtain ⟨n, hn⟩ := Int.eq_ofNat_of_zero_le hp0
    have hreads : ∀ o ∈ (List.range l).map (fun j => envRead cfg p
        (cfg.num.div (cfg.num.ofInt p.l) (cfg.num.ofInt l)) (j + 1)), ∃ r, o = some r := by
      simp only [List.mem_map, List.mem_range, forall_exists_index, and_imp]
      rintro o j hj rfl
      obtain ⟨h0, h1⟩ := hf n l (j + 1) (by omega) hl (by omega) (by omega)
      rw [hn]
      exact envRead_eq_some hp h0 (by omega)
    obtain ⟨w, hw⟩ := allSome_eq_some hreads
    exact ⟨w, by simp only [envWindow, if_neg hl0, if_neg (show ¬ (p.l < 0 ∨ (cfg.lMax : Int) < p.l) by omega), hw]⟩

/-- SQENC refuses a frame that does not pass the checks. -/
theorem runSqenc_refused {pitch : Nat} {l : BitVec 8} {vuv : List Bool} {mag : List Nat} {s : StateOf N}
    (ha : ¬ frameAccepted cfg (voiceFrame cfg pitch l vuv mag) = true) :
    runSqenc cfg pitch l vuv mag s = .next s.misuse :=
  if_neg ha

theorem runSqenc_goes_on (hf : FloorPremise cfg) {s : StateOf N} (hp : PredState.InRange cfg.lMax s.pred) (pitch : Nat)
    (l : BitVec 8) (vuv : List Bool) (mag : List Nat) : ∃ t, runSqenc cfg pitch l vuv mag s = .next t := by
  by_cases ha : frameAccepted cfg (voiceFrame cfg pitch l vuv mag) = true
  · have hl : l.toNat ≤ cfg.lMax := by
      simp only [frameAccepted, Bool.and_eq_true, decide_eq_true_eq] at ha
      exact ha.1
    obtain ⟨w, hw⟩ := envWindow_eq_ok hf hp hl
    exact ⟨_, runSqenc_accepted ha hw⟩
  · exact ⟨_, runSqenc_refused ha⟩

/-- No command stops where `PRED` is in range. -/
theorem runInstr_goes_on (hf : FloorPremise cfg) {s : StateOf N} (hp : PredState.InRange cfg.lMax s.pred) (i : Instr) :
    ∃ t, runInstr cfg i s = .next t := by
  cases i with
  | sqenc pitch l vuv mag => exact runSqenc_goes_on hf hp pitch l vuv mag
  | sqgain db =>
    obtain ⟨-, h⟩ | ⟨-, h⟩ := runSqgain_cases cfg db s
    · exact ⟨_, h⟩
    · exact ⟨_, h⟩
  | _ => exact ⟨_, rfl⟩

/-- No step stops where `PRED` is in range. -/
theorem stepOf_goes_on (hf : FloorPremise cfg) {s : StateOf N} (hp : PredState.InRange cfg.lMax s.pred) :
    ∃ t, stepOf cfg s = .next t := by
  obtain ⟨-, h⟩ | ⟨bits, rest, -, h⟩ | ⟨i, rest, -, -, h⟩ := stepOf_cases cfg s
  · exact ⟨_, h⟩
  · obtain ⟨i, -, hr⟩ | ⟨e, -, hr⟩ := requestOf_cases cfg bits (s.takeInput rest)
    · obtain ⟨t, ht⟩ := runInstr_goes_on hf (s := s.takeInput rest) hp i
      exact ⟨t, h.trans (hr.trans ht)⟩
    · exact ⟨_, h.trans hr⟩
  · exact ⟨_, h⟩

/-- Settles O12: progress from a predictor in range, and O11's preservation. -/
theorem everyStepFromTheInvariantGoesOn : Obligations.EveryStepFromTheInvariantGoesOn := by
  have goes_on {N : Type} {cfg : Params N} (hc : ConfigWf cfg) (hf : FloorPremise cfg) {s : StateOf N}
      (hs : InvOf cfg s) : ∃ t, stepOf cfg s = .next t ∧ InvOf cfg t := by
    obtain ⟨t, ht⟩ := stepOf_goes_on hf hs.pred
    exact ⟨t, ht, stepOf_keeps_inv hc hs ht⟩
  refine ⟨fun _ _ hc hf _ hs => goes_on hc hf hs, fun s hs => ?_⟩
  obtain ⟨t, ht, hinv⟩ := goes_on chip_wf chip_floorPremise hs
  exact ⟨⟨t⟩, by rw [step_eq_stepOf, ht, onMachine_next], hinv⟩

end Sys2Proof.Machine
end

section
/-!
PROOF. What each command writes and what it reads (R10): eleven commands answer from their operands alone, SQRST and SQENC
write `PRED`, SQGAIN writes `GADJ`. The state after power-on, SQRST and SQGAIN.
-/

namespace Sys2Proof.Machine

variable {N : Type} {cfg : Params N}

/-! What a command writes -/

/-- A command answers from its operands alone and writes nothing, or is one of the three of the spectral quantizer. -/
theorem runInstr_stateless_or_quantizer (cfg : Params N) (i : Instr) :
    (∃ payload, ∀ s, runInstr cfg i s = .next (s.respond payload)) ∨
      (∃ pitch l vuv mag, i = .sqenc pitch l vuv mag) ∨ i = .sqrst ∨ ∃ db, i = .sqgain db := by
  cases i with
  | sqenc pitch l vuv mag => exact .inr (.inl ⟨pitch, l, vuv, mag, rfl⟩)
  | sqrst => exact .inr (.inr (.inl rfl))
  | sqgain db => exact .inr (.inr (.inr ⟨db, rfl⟩))
  | _ => exact .inl ⟨_, fun _ => rfl⟩

/-- SQENC on a frame that passes the checks and stage 1, when `PRED` cannot be read (log 15). -/
theorem runSqenc_stops {pitch : Nat} {l : BitVec 8} {vuv : List Bool} {mag : List Nat} {s : StateOf N} {f : Fault}
    {b0 : BitVec 7} (ha : frameAccepted cfg (voiceFrame cfg pitch l vuv mag) = true)
    (hw : envWindow cfg s.pred l.toNat = .error f) (h1 : stage1 cfg pitch l.toNat = some b0) :
    runSqenc cfg pitch l vuv mag s = .fault f := by
  have hl : (voiceFrame cfg pitch l vuv mag).l = l.toNat := rfl
  have hp : (voiceFrame cfg pitch l vuv mag).pitch = pitch := rfl
  simp only [runSqenc, ha, if_true, hl, hp, hw, h1]

theorem runSqgain_accepted {db : Nat} (hf : cfg.num.finite (numOfBits cfg db) = true) (s : StateOf N) :
    runSqgain cfg db s = .next ((s.setGadj (gainOfDb cfg.num (numOfBits cfg db))).respond []) :=
  if_pos hf

theorem runSqgain_refused {db : Nat} (hf : ¬ cfg.num.finite (numOfBits cfg db) = true) (s : StateOf N) :
    runSqgain cfg db s = .next s.misuse :=
  if_neg hf

/-- SQENC leaves `GADJ` (R17). -/
theorem runSqenc_gadj {pitch : Nat} {l : BitVec 8} {vuv : List Bool} {mag : List Nat} {s t : StateOf N}
    (h : runSqenc cfg pitch l vuv mag s = .next t) : t.gadj = s.gadj := by
  obtain hr | ⟨b, hr⟩ | ⟨f, -, hr⟩ := runSqenc_cases cfg pitch l vuv mag s <;> rw [hr] at h <;> cases h
  · exact StateOf.misuse_gadj s
  · exact StateOf.commitFrame_gadj cfg s b

/-- SQGAIN leaves `PRED` (R15). -/
theorem runSqgain_pred {db : Nat} {s t : StateOf N} (h : runSqgain cfg db s = .next t) : t.pred = s.pred := by
  obtain ⟨-, hr⟩ | ⟨-, hr⟩ := runSqgain_cases cfg db s <;> rw [hr] at h <;> cases h
  · rw [StateOf.respond_pred, StateOf.setGadj_pred]
  · exact StateOf.misuse_pred s

/-- Settles O16: the three commands of the quantizer are excluded. -/
theorem statelessCommandsReadAndWriteNoState : Obligations.StatelessCommandsReadAndWriteNoState := by
  intro i henc hrst hgain
  obtain ⟨payload, h⟩ | ⟨_, _, _, _, rfl⟩ | rfl | ⟨_, rfl⟩ := runInstr_stateless_or_quantizer Config.chip i
  · exact ⟨payload, fun s => by rw [exec_eq_runInstr, h]; rfl⟩
  · exact absurd rfl henc
  · exact absurd rfl hrst
  · exact absurd rfl hgain

theorem runInstr_pred {i : Instr} {s t : StateOf N} (henc : i.opcode ≠ .sqenc) (hrst : i.opcode ≠ .sqrst)
    (ht : runInstr cfg i s = .next t) : t.pred = s.pred := by
  obtain ⟨payload, h⟩ | ⟨_, _, _, _, rfl⟩ | rfl | ⟨db, rfl⟩ := runInstr_stateless_or_quantizer cfg i
  · cases (h s).symm.trans ht
    exact StateOf.respond_pred s payload
  · exact absurd rfl henc
  · exact absurd rfl hrst
  · exact runSqgain_pred ht

theorem runInstr_gadj {i : Instr} {s t : StateOf N} (hgain : i.opcode ≠ .sqgain) (ht : runInstr cfg i s = .next t) :
    t.gadj = s.gadj := by
  obtain ⟨payload, h⟩ | ⟨pitch, l, vuv, mag, rfl⟩ | rfl | ⟨_, rfl⟩ := runInstr_stateless_or_quantizer cfg i
  · cases (h s).symm.trans ht
    exact StateOf.respond_gadj s payload
  · exact runSqenc_gadj ht
  · cases ht
    rw [StateOf.respond_gadj, StateOf.setPred_gadj]
  · exact absurd rfl hgain

/-- Settles O14: SQGAIN is the one other command that writes state, and it leaves `PRED`. -/
theorem onlySqencAndSqrstWritePred : Obligations.OnlySqencAndSqrstWritePred := by
  intro i s t henc hrst ht
  rw [exec_eq_runInstr, onMachine_eq_next] at ht
  exact runInstr_pred henc hrst ht

/-- Settles O15: of the other commands SQENC and SQRST write state, and they leave `GADJ`. -/
theorem onlySqgainWritesGadj : Obligations.OnlySqgainWritesGadj := by
  intro i s t hgain ht
  rw [exec_eq_runInstr, onMachine_eq_next] at ht
  exact runInstr_gadj hgain ht

/-! What a command reads: two states that agree on `PRED` and `GADJ` -/

section Agree

variable {s₁ s₂ t₁ : StateOf N} (hp : s₁.pred = s₂.pred) (hg : s₁.gadj = s₂.gadj)
include hp hg

/-- SQENC reads `PRED` and `GADJ` alone (R10): the checks read the frame, stage 5 `PRED`, stage 4 `GADJ` as well. -/
theorem runSqenc_of_agree {pitch : Nat} {l : BitVec 8} {vuv : List Bool} {mag : List Nat}
    (h : runSqenc cfg pitch l vuv mag s₁ = .next t₁) :
    ∃ p r, t₁ = (s₁.setPred p).deliver r ∧ runSqenc cfg pitch l vuv mag s₂ = .next ((s₂.setPred p).deliver r) := by
  have commit {b : Fields} (h₁ : runSqenc cfg pitch l vuv mag s₁ = .next (s₁.commitFrame cfg b))
      (h₂ : runSqenc cfg pitch l vuv mag s₂ = .next (s₂.commitFrame cfg b)) :
      ∃ p r, t₁ = (s₁.setPred p).deliver r ∧
        runSqenc cfg pitch l vuv mag s₂ = .next ((s₂.setPred p).deliver r) := by
    cases h₁.symm.trans h
    exact ⟨_, _, rfl, by rw [h₂, hp]; rfl⟩
  by_cases ha : frameAccepted cfg (voiceFrame cfg pitch l vuv mag) = true
  · cases hw : envWindow cfg s₁.pred l.toNat with
    | ok w => exact commit (runSqenc_accepted ha hw) (by rw [hp, hg]; exact runSqenc_accepted ha (hp ▸ hw))
    | error f =>
      cases h1 : stage1 cfg pitch l.toNat with
      | none => exact commit (runSqenc_aborted ha h1) (runSqenc_aborted ha h1)
      | some b0 => cases (runSqenc_stops ha hw h1).symm.trans h
  · cases (runSqenc_refused ha).symm.trans h
    exact ⟨s₁.pred, .misuse, rfl, by rw [runSqenc_refused ha, hp]; rfl⟩

/-- Every command reads `PRED` and `GADJ` alone (R10). -/
theorem runInstr_of_agree {i : Instr} (h : runInstr cfg i s₁ = .next t₁) :
    ∃ p g r, t₁ = ((s₁.setPred p).setGadj g).deliver r ∧
      runInstr cfg i s₂ = .next (((s₂.setPred p).setGadj g).deliver r) := by
  obtain ⟨payload, hi⟩ | ⟨pitch, l, vuv, mag, rfl⟩ | rfl | ⟨db, rfl⟩ := runInstr_stateless_or_quantizer cfg i
  · cases (hi s₁).symm.trans h
    exact ⟨s₁.pred, s₁.gadj, .ok payload, rfl, by rw [hi, hp, hg]; rfl⟩
  · obtain ⟨p, r, rfl, h₂⟩ := runSqenc_of_agree hp hg h
    exact ⟨p, s₁.gadj, r, rfl, h₂.trans (by rw [hg]; rfl)⟩
  · cases h
    exact ⟨cfg.predReset, s₁.gadj, .ok [], rfl, by rw [hg]; rfl⟩
  · by_cases hf : cfg.num.finite (numOfBits cfg db) = true
    · cases (runSqgain_accepted hf s₁).symm.trans h
      exact ⟨s₁.pred, _, .ok [], rfl, (runSqgain_accepted hf s₂).trans (by rw [hp]; rfl)⟩
    · cases (runSqgain_refused hf s₁).symm.trans h
      exact ⟨s₁.pred, s₁.gadj, .misuse, rfl, (runSqgain_refused hf s₂).trans (by rw [hp, hg]; rfl)⟩

end Agree

/-- Settles O17: both states get the same `PRED`, `GADJ` and response from the command. -/
theorem outcomeDependsOnPredAndGadjAlone : Obligations.OutcomeDependsOnPredAndGadjAlone := by
  intro i s₁ s₂ t₁ hp hg h
  rw [exec_eq_runInstr, onMachine_eq_next] at h
  obtain ⟨p, g, r, ht₁, h₂⟩ := runInstr_of_agree hp hg h
  refine ⟨r, ⟨((s₂.setPred p).setGadj g).deliver r⟩, by rw [exec_eq_runInstr, h₂, onMachine_next], ?_⟩
  simp [ht₁]

/-! The state after power-on, and SQRST -/

/-- The invariant holds at reset, in every configuration that meets R9. -/
theorem InvOf.reset (hc : ConfigWf cfg) : InvOf cfg (StateOf.reset cfg) :=
  ⟨hc.predReset, .inl rfl, List.forall_mem_nil _⟩

/-- Settles O10: the machine's configuration meets R9. -/
theorem resetMeetsTheInvariant : Obligations.ResetMeetsTheInvariant := InvOf.reset chip_wf

/-- Settles O9: the integer 0 is the word +0 (log 12). -/
theorem resetStateIsPredResetAndZeroGain : Obligations.ResetStateIsPredResetAndZeroGain :=
  ⟨rfl, show F32.ofInt 0 = 0#32 by decide, rfl, rfl⟩

/-- Settles O57: SQRST completes in every state, that of a first SQRST too. -/
theorem sqrstRestoresPredAlone : Obligations.SqrstRestoresPredAlone := by
  have hrst (s : State) : exec .sqrst s =
      .next { s with pred := Config.chip.predReset, responses := s.responses ++ [.ok []] } := rfl
  refine ⟨hrst, fun s t ht => ⟨_, hrst t, ?_, rfl⟩⟩
  cases (hrst s).symm.trans ht
  rfl

end Sys2Proof.Machine

/-! SQGAIN: the clamp of the reference numerics -/

namespace Sys2Proof.Machine.F32

theorem key_eq (x : Num32) : key x = if x.toNat < 2 ^ 31 then (x.toNat : Int) else 2 ^ 31 - x.toNat := by
  have habs : (abs x).toNat = x.toNat % 2 ^ 31 := by
    rw [abs, BitVec.toNat_and]
    exact Nat.and_two_pow_sub_one_eq_mod x.toNat 31
  have hneg : neg x = decide (2 ^ 31 ≤ x.toNat) := BitVec.msb_eq_decide x
  have := x.isLt
  rw [key, hneg, habs]
  simp only [decide_eq_true_eq]
  split <;> split <;> omega

/-- Of two words with the same place in the value order, only the zeros differ. -/
theorem eq_of_key_eq {x y : Num32} (h : key x = key y) (h0 : key y ≠ 0) : x = y := by
  have hx := x.isLt
  have hy := y.isLt
  rw [key_eq] at h h0
  rw [key_eq] at h
  apply BitVec.eq_of_toNat_eq
  split at h <;> split at h <;> omega

theorem lt_iff_key_lt {x y : Num32} (hx : finite x = true) (hy : finite y = true) : lt x y = true ↔ key x < key y := by
  rw [lt_eq_decide_key (not_isNan_of_finite hx) (not_isNan_of_finite hy), decide_eq_true_eq]

/-- A choice by `lt` between two words, one of them not a zero, can be made by the converse comparison. -/
theorem ite_lt_comm {α : Type} {x y : Num32} (hx : finite x = true) (hy : finite y = true) (h0 : key y ≠ 0) {a b : α}
    (hab : x = y → a = b) : (if lt x y then a else b) = if lt y x then b else a := by
  simp only [lt_iff_key_lt hx hy, lt_iff_key_lt hy hx]
  obtain h | h | h := lt_trichotomy (key x) (key y)
  · rw [if_pos h, if_neg h.not_gt]
  · rw [hab (eq_of_key_eq h h0), ite_self, ite_self]
  · rw [if_neg h.not_gt, if_pos h]

/-- `clamp` (R8) of a finite word between a negative and a positive bound. -/
theorem clampNum_eq {x lo hi : Num32} (hx : finite x = true) (hlo : finite lo = true) (hhi : finite hi = true)
    (hneg : key lo < 0) (hpos : 0 < key hi) :
    clampNum numerics x lo hi = if lt x lo then lo else if lt hi x then hi else x :=
  calc clampNum numerics x lo hi
    _ = max lo (if lt x hi then x else hi) := rfl
    _ = max lo (if lt hi x then hi else x) := by rw [ite_lt_comm hx hhi hpos.ne' id]
    _ = if lt x lo then lo else if lt hi x then hi else x := by
      by_cases h : lt hi x = true
      · have hlohi : lt lo hi = true := (lt_iff_key_lt hlo hhi).mpr (hneg.trans hpos)
        have hxlo : ¬ lt x lo = true := by
          rw [lt_iff_key_lt hhi hx] at h
          rw [lt_iff_key_lt hx hlo]
          omega
        rw [if_pos h, if_neg hxlo, max, if_pos hlohi]
      · rw [if_neg h, max, ite_lt_comm hx hlo hneg.ne Eq.symm]

end Sys2Proof.Machine.F32

namespace Sys2Proof.Machine

/-- Settles O58: SQGAIN accepts a finite gain, and `clamp` is the choice written out there. -/
theorem sqgainStoresTheClampedGain : Obligations.SqgainStoresTheClampedGain := by
  intro db s hdb
  have hclamp := F32.clampNum_eq hdb (lo := F32.ofInt (-20)) (hi := F32.ofInt 20) (by decide) (by decide) (by decide)
    (by decide)
  rw [exec_eq_runInstr, ← hclamp]
  exact congrArg onMachine (runSqgain_accepted (cfg := Config.chip) hdb s.toStateOf)

end Sys2Proof.Machine
end

section
/-!
PROOF. A vector cut into slices of equal width is the sequence of its positions again; R32 is the case of a frame's nine
bytes.
-/

namespace Sys2Proof.Bits

theorem ofVec_slice {n : Nat} (x : BitVec n) {i len : Nat} (h : i + len ≤ n) :
    ofVec (slice x i len) = (List.range len).map fun j => x.getMsbD (i + j) :=
  List.map_congr_left fun j hj => slice_getMsbD x i len j (List.mem_range.mp hj) h

/-- The first `m` slices of width `w`, end to end, are the first `w * m` positions. -/
theorem flatMap_ofVec_slice {n : Nat} (x : BitVec n) (w m : Nat) (h : w * m ≤ n) :
    ((List.range m).flatMap fun k => ofVec (slice x (w * k) w)) = (List.range (w * m)).map x.getMsbD := by
  induction m with
  | zero => rfl
  | succ m ih =>
    rw [Nat.mul_succ] at h ⊢
    rw [List.range_succ, List.flatMap_append, ih (by omega), List.flatMap_singleton, ofVec_slice x h, List.range_add,
      List.map_append, List.map_map, Function.comp_def]

theorem length_frameBytes (f : Frame72) : (frameBytes f).length = 9 := by
  simp [frameBytes]

theorem frameBytes_getD (f : Frame72) {k : Nat} (hk : k < 9) : (frameBytes f).getD k 0#8 = slice f (8 * k) 8 := by
  simp [frameBytes, hk]

/-- The nine bytes of a frame hold its positions in order, and so give it back (R32). -/
theorem ofFrameBytes_frameBytes (f : Frame72) : ofFrameBytes (frameBytes f) = f := by
  have hpositions : (frameBytes f).flatMap ofVec = ofVec f := by
    rw [frameBytes, List.flatMap_map, flatMap_ofVec_slice f 8 9 (by decide), ofVec]
  rw [ofFrameBytes, hpositions, vec_ofVec]

end Sys2Proof.Bits

namespace Sys2Proof.Machine

/-- Settles O30: bit 7 - j of a byte is its position j, and byte k is the slice at position 8k. -/
theorem frameBytesAreMsbFirst : Obligations.FrameBytesAreMsbFirst := by
  refine fun f => ⟨Bits.length_frameBytes f, fun k hk j hj => ?_, Bits.ofFrameBytes_frameBytes f⟩
  calc ((Bits.frameBytes f).getD k 0#8).getLsbD (7 - j)
    _ = (Bits.slice f (8 * k) 8).getLsbD (7 - j) := by rw [Bits.frameBytes_getD f hk]
    _ = (Bits.slice f (8 * k) 8).getMsbD j := by rw [BitVec.getMsbD, decide_eq_true hj, Bool.true_and]
    _ = f.getMsbD (8 * k + j) := Bits.slice_getMsbD f (8 * k) 8 j hj (by omega)

end Sys2Proof.Machine
end

section
/-!
PROOF. Requests and the opcode map (R51, R53, R57): a sequence is the positions of the vector it makes, so a field is
read back from where it was written; one lemma says when a request decodes, and to what.
-/

namespace Sys2Proof.Bits

/-! Sequences and vectors (R4, R5) -/

theorem val_lt (s : List Bool) : val s < 2 ^ s.length := by
  induction s using List.reverseRecOn with
  | nil => decide
  | append_singleton s b ih =>
    have hb := b.toNat_lt
    rw [val_append_singleton, List.length_append, List.length_singleton, Nat.pow_succ]
    omega

/-- Sequences of one length are told apart by their integers. -/
theorem eq_of_val_eq {s t : List Bool} (hlen : s.length = t.length) (hval : val s = val t) : s = t := by
  induction s using List.reverseRecOn generalizing t with
  | nil => exact (List.eq_nil_of_length_eq_zero hlen.symm).symm
  | append_singleton s b ih =>
    obtain rfl | ⟨t, c, rfl⟩ := t.eq_nil_or_concat'
    · simp at hlen
    · have hb := b.toNat_lt
      have hc := c.toNat_lt
      rw [val_append_singleton, val_append_singleton] at hval
      have hbit : b.toNat = c.toNat := by omega
      rw [ih (by simpa using hlen) (by omega), ← Bool.ofNat_toNat b, hbit, Bool.ofNat_toNat]

/-- The positions of a sequence's vector are the sequence (R5). -/
theorem ofVec_vec {n : Nat} {s : List Bool} (h : s.length = n) : ofVec (vec n s) = s := by
  refine eq_of_val_eq (by simp [h]) ?_
  rw [val_ofVec, vec, BitVec.toNat_ofNat, Nat.mod_eq_of_lt (h ▸ val_lt s)]

theorem val_ofVec_ofNat {n x : Nat} (h : x < 2 ^ n) : val (ofVec (BitVec.ofNat n x)) = x := by
  rw [val_ofVec, BitVec.toNat_ofNat, Nat.mod_eq_of_lt h]

/-! Fields of a payload (R51, R54) -/

@[simp] theorem field_ofVec_append {n : Nat} (x : BitVec n) (post : List Bool) : field n 0 (ofVec x ++ post) = x :=
  field_append x [] post

@[simp] theorem field_ofVec {n : Nat} (x : BitVec n) : field n 0 (ofVec x) = x := by
  simpa using field_ofVec_append x []

/-- A field that starts after the first part of a payload is a field of the rest. -/
theorem field_append_right {n off : Nat} {pre : List Bool} (h : pre.length ≤ off) (post : List Bool) :
    field n off (pre ++ post) = field n (off - pre.length) post := by
  rw [field, field, List.drop_append, List.drop_eq_nil_of_le h, List.nil_append]

/-- A field that lies within a payload is read position for position. -/
theorem ofVec_field {n off : Nat} {p : List Bool} (h : off + n ≤ p.length) :
    ofVec (field n off p) = (p.drop off).take n :=
  ofVec_vec (by rw [List.length_take, List.length_drop]; omega)

/-- The payload up to the end of a field: what stands before the field, and the field. -/
theorem take_append_ofVec_field {n off : Nat} {p : List Bool} (h : off + n ≤ p.length) :
    p.take off ++ ofVec (field n off p) = p.take (off + n) := by
  rw [ofVec_field h, List.take_add]

end Sys2Proof.Bits

namespace Sys2Proof

/-! The opcode map (R53, R57) -/

/-- An opcode is found by its byte. -/
@[simp] theorem Opcode.ofByte_byte (o : Opcode) : ofByte o.byte = some o := by
  cases o <;> rfl

theorem Opcode.ofByte_eq_some_iff {b : Byte} {o : Opcode} : ofByte b = some o ↔ b = o.byte := by
  constructor
  · intro h
    have hfound := List.find?_some h
    exact (beq_iff_eq.mp hfound).symm
  · rintro rfl
    exact o.ofByte_byte

/-- The opcode byte of a request of at least 8 bits is its first 8 positions. -/
theorem Opcode.ofByte_field_eq_some_iff {req : List Bool} (h : 8 ≤ req.length) {o : Opcode} :
    ofByte (Bits.field 8 0 req) = some o ↔ req.take 8 = Bits.ofVec o.byte := by
  have htake : Bits.ofVec (Bits.field 8 0 req) = req.take 8 := Bits.ofVec_field (by omega)
  rw [ofByte_eq_some_iff, ← htake]
  refine ⟨congrArg Bits.ofVec, fun heq => ?_⟩
  rw [← Bits.vec_ofVec (Bits.field 8 0 req), heq, Bits.vec_ofVec]

/-- When a request decodes, and to what (R51, R57): its first 8 positions are a listed opcode, its length is the one of
that opcode, and the operands are read from the rest. -/
theorem decode_eq_ok_iff {w : Widths} {req : List Bool} {i : Instr} :
    decode w req = .ok i ↔ ∃ o : Opcode, req.take 8 = Bits.ofVec o.byte ∧ req.length = 8 + o.payloadLength w ∧
      decodePayload w o (req.drop 8) = i := by
  constructor
  · intro h
    unfold decode at h
    split at h
    next => cases h
    next h8 =>
      split at h
      next => cases h
      next o ho =>
        split at h
        next hlen => exact ⟨o, (Opcode.ofByte_field_eq_some_iff (by omega)).mp ho, hlen, Except.ok.inj h⟩
        next => cases h
  · rintro ⟨o, hop, hlen, rfl⟩
    have h8 : ¬ req.length < 8 := by omega
    simp only [decode, if_neg h8, (Opcode.ofByte_field_eq_some_iff (by omega)).mpr hop, if_pos hlen]

theorem Instr.length_encode {w : Widths} {i : Instr} (h : i.wf w = true) :
    (encode w i).length = 8 + i.opcode.payloadLength w :=
  match i with
  | .g24enc d => Laws.EncodedLength.g24enc d w h
  | .g24dec cw => Laws.EncodedLength.g24dec cw w h
  | .g23enc d => Laws.EncodedLength.g23enc d w h
  | .g23dec cw => Laws.EncodedLength.g23dec cw w h
  | .scrmask seed => Laws.EncodedLength.scrmask seed w h
  | .ilvpack a b c => Laws.EncodedLength.ilvpack a b c w h
  | .ilvunpk f => Laws.EncodedLength.ilvunpk f w h
  | .fecpack v => Laws.EncodedLength.fecpack v w h
  | .fecunpk f => Laws.EncodedLength.fecunpk f w h
  | .fldpack b => Laws.EncodedLength.fldpack b w h
  | .fldunpk v => Laws.EncodedLength.fldunpk v w h
  | .sqenc pitch l vuv mag => Laws.EncodedLength.sqenc pitch l vuv mag w h
  | .sqrst => Laws.EncodedLength.sqrst w h
  | .sqgain db => Laws.EncodedLength.sqgain db w h

/-! The nine fields of B9 (R53) -/

theorem decodeFields_encodeFields (b : Fields) : decodeFields (encodeFields b) = b := by
  simp [decodeFields, encodeFields, List.append_assoc, Bits.field_append_right]

theorem encodeFields_decodeFields {p : List Bool} (h : p.length = 49) : encodeFields (decodeFields p) = p := by
  have hfirst : Bits.ofVec (Bits.field 7 0 p) = p.take 7 := Bits.ofVec_field (by omega)
  simp [encodeFields, decodeFields, hfirst, Bits.take_append_ofVec_field, h]

/-! The magnitudes of VMF (R55) -/

theorem decodeMag_flatMap {n : Nat} {mag : List Nat} (h : ∀ m ∈ mag, m < 2 ^ n) :
    decodeMag n mag.length (mag.flatMap fun m => Bits.ofVec (BitVec.ofNat n m)) = mag := by
  induction mag with
  | nil => rfl
  | cons m mag ih =>
    obtain ⟨hm, hmag⟩ := List.forall_mem_cons.mp h
    simp only [List.length_cons, List.flatMap_cons, decodeMag]
    rw [List.take_left' (Bits.length_ofVec _), List.drop_left' (Bits.length_ofVec _), Bits.val_ofVec_ofNat hm, ih hmag]

theorem length_decodeMag (numW n : Nat) (p : List Bool) : (decodeMag numW n p).length = n := by
  induction n generalizing p with
  | zero => rfl
  | succ n ih => rw [decodeMag, List.length_cons, ih]

theorem val_take_lt (p : List Bool) (n : Nat) : Bits.val (p.take n) < 2 ^ n :=
  (Bits.val_lt _).trans_le (Nat.pow_le_pow_right (by decide) (List.length_take_le n p))

theorem decodeMag_lt {numW n : Nat} {p : List Bool} : ∀ m ∈ decodeMag numW n p, m < 2 ^ numW := by
  induction n generalizing p with
  | zero => exact List.forall_mem_nil _
  | succ n ih => exact List.forall_mem_cons.mpr ⟨val_take_lt p numW, ih⟩

/-- Numbers read from a payload that holds them whole are written back as they stood. -/
theorem flatMap_decodeMag {numW n : Nat} {p : List Bool} (h : p.length = n * numW) :
    (decodeMag numW n p).flatMap (fun m => Bits.ofVec (BitVec.ofNat numW m)) = p := by
  induction n generalizing p with
  | zero => exact (List.eq_nil_of_length_eq_zero (by omega)).symm
  | succ n ih =>
    rw [Nat.add_one_mul] at h
    have hfirst : Bits.ofVec (BitVec.ofNat numW (Bits.val (p.take numW))) = p.take numW :=
      Bits.ofVec_vec (by rw [List.length_take]; omega)
    rw [decodeMag, List.flatMap_cons, hfirst, ih (by rw [List.length_drop]; omega), List.take_append_drop]

/-! Payloads -/

theorem Instr.wf_sqenc_iff {w : Widths} {pitch : Nat} {l : BitVec 8} {vuv : List Bool} {mag : List Nat} :
    (Instr.sqenc pitch l vuv mag).wf w = true ↔
      pitch < 2 ^ w.pitchW ∧ vuv.length = w.lMax ∧ mag.length = w.lMax ∧ ∀ m ∈ mag, m < 2 ^ w.numW := by
  simp [Instr.wf, and_assoc]

theorem decodePayload_encodePayload_sqenc {w : Widths} {pitch : Nat} {l : BitVec 8} {vuv : List Bool} {mag : List Nat}
    (h : (Instr.sqenc pitch l vuv mag).wf w = true) :
    decodePayload w .sqenc (encodePayload w (.sqenc pitch l vuv mag)) = .sqenc pitch l vuv mag := by
  obtain ⟨hpitch, hvuv, hmag, hnum⟩ := Instr.wf_sqenc_iff.mp h
  have hfields (x y v m : List Bool) (hx : x.length = w.pitchW) (hy : y.length = 8) (hv : v.length = w.lMax) :
      (x ++ (y ++ (v ++ m))).take w.pitchW = x ∧ ((x ++ (y ++ (v ++ m))).drop (w.pitchW + 8)).take w.lMax = v ∧
        (x ++ (y ++ (v ++ m))).drop (w.pitchW + 8 + w.lMax) = m := by
    simp [← hx, ← hy, ← hv, ← List.drop_drop]
  obtain ⟨h1, h2, h3⟩ := hfields (Bits.ofVec (BitVec.ofNat w.pitchW pitch)) (Bits.ofVec l) vuv
    (mag.flatMap fun m => Bits.ofVec (BitVec.ofNat w.numW m)) (by simp) (by simp) hvuv
  simp only [encodePayload, decodePayload, List.append_assoc, h1, h2, h3, Bits.val_ofVec_ofNat hpitch]
  rw [Bits.field_append_right (by simp), Bits.length_ofVec, Nat.sub_self, Bits.field_ofVec_append, ← hmag,
    decodeMag_flatMap hnum]

/-- The operands of a well-formed command are read back from its payload. -/
theorem decodePayload_encodePayload {w : Widths} {i : Instr} (h : i.wf w = true) :
    decodePayload w i.opcode (encodePayload w i) = i := by
  cases i with
  | sqenc pitch l vuv mag => exact decodePayload_encodePayload_sqenc h
  | sqgain db =>
    have hdb : db < 2 ^ w.numW := by simpa [Instr.wf] using h
    simp [Instr.opcode, decodePayload, encodePayload, List.take_of_length_le,
      Bits.val_ofVec_ofNat hdb]
  | fldpack b => exact congrArg Instr.fldpack (decodeFields_encodeFields b)
  | ilvpack a b c => simp [Instr.opcode, decodePayload, encodePayload, List.append_assoc, Bits.field_append_right]
  | sqrst => rfl
  | _ => exact congrArg _ (Bits.field_ofVec _)

/-- The command read from any payload has the opcode it was read for. -/
@[simp] theorem opcode_decodePayload (w : Widths) (o : Opcode) (p : List Bool) : (decodePayload w o p).opcode = o := by
  cases o <;> rfl

/-- The command read from any payload of the right length is well-formed. -/
theorem wf_decodePayload {w : Widths} {o : Opcode} {p : List Bool} (h : p.length = o.payloadLength w) :
    (decodePayload w o p).wf w = true := by
  cases o with
  | sqenc =>
    refine Instr.wf_sqenc_iff.mpr ⟨val_take_lt p w.pitchW, ?_, length_decodeMag _ _ _, decodeMag_lt⟩
    simp only [Opcode.payloadLength] at h
    rw [List.length_take, List.length_drop]
    omega
  | sqgain => exact decide_eq_true (val_take_lt p w.numW)
  | _ => rfl

/-- A payload of the right length is that of the command read from it. -/
theorem encodePayload_decodePayload {w : Widths} {o : Opcode} {p : List Bool} (h : p.length = o.payloadLength w) :
    encodePayload w (decodePayload w o p) = p := by
  have hwhole {n : Nat} (hn : p.length = n) : Bits.ofVec (Bits.field n 0 p) = p := by
    rw [Bits.ofVec_field (by omega), List.drop_zero, List.take_of_length_le (by omega)]
  cases o with
  | sqenc =>
    simp only [Opcode.payloadLength] at h
    have hpitch : Bits.ofVec (BitVec.ofNat w.pitchW (Bits.val (p.take w.pitchW))) = p.take w.pitchW :=
      Bits.ofVec_vec (by rw [List.length_take]; omega)
    have hmag := flatMap_decodeMag (numW := w.numW) (n := w.lMax) (p := p.drop (w.pitchW + 8 + w.lMax))
      (by rw [List.length_drop]; omega)
    simp only [decodePayload, encodePayload]
    rw [hpitch, hmag, Bits.take_append_ofVec_field (by omega), ← List.take_add, List.take_append_drop]
  | sqgain =>
    have hdb : Bits.ofVec (BitVec.ofNat w.numW (Bits.val (p.take w.numW))) = p.take w.numW :=
      Bits.ofVec_vec (by rw [List.length_take, h]; simp [Opcode.payloadLength])
    simp only [decodePayload, encodePayload, hdb]
    exact List.take_of_length_le h.le
  | sqrst => exact (List.eq_nil_of_length_eq_zero h).symm
  | fldpack => exact encodeFields_decodeFields h
  | ilvpack =>
    have hfirst : Bits.ofVec (Bits.field 24 0 p) = p.take 24 := Bits.ofVec_field (by simp [h, Opcode.payloadLength])
    simp [encodePayload, decodePayload, hfirst, Bits.take_append_ofVec_field, h, Opcode.payloadLength,
      List.take_of_length_le]
  | _ => exact hwhole h

/-- Settles O1: the opcode is read from the first 8 positions, the operands from the rest. -/
theorem decodeOfEncodeGivesTheCommand : Obligations.DecodeOfEncodeGivesTheCommand := by
  intro w i h
  refine decode_eq_ok_iff.mpr ⟨i.opcode, ?_, Instr.length_encode h, ?_⟩
  · exact List.take_left' (Bits.length_ofVec _)
  · rw [encode, List.drop_left' (Bits.length_ofVec _), decodePayload_encodePayload h]

/-- Settles O2: the two parts of a request that decodes are the opcode and the payload of the command. -/
theorem encodeOfDecodeGivesTheRequest : Obligations.EncodeOfDecodeGivesTheRequest := by
  intro w req i h
  obtain ⟨o, hop, hlen, rfl⟩ := decode_eq_ok_iff.mp h
  have hpayload : (req.drop 8).length = o.payloadLength w := by rw [List.length_drop]; omega
  refine ⟨wf_decodePayload hpayload, ?_⟩
  rw [encode, opcode_decodePayload, encodePayload_decodePayload hpayload, ← hop, List.take_append_drop]

end Sys2Proof
end

section
/-!
PROOF. Wrong requests and bad operands, and the form of a response (R51, R52, R57, R181); what SQENC reads of a frame
(R55, R60, R132).
-/

namespace Sys2Proof.Machine

variable {N : Type} {cfg : Params N}

/-! Requests that are no commands -/

/-- A step at a request that does not decode answers MISUSE. -/
theorem stepOf_request_refused {s : StateOf N} {req : List Bool} {rest : List HostInput}
    (hs : s.inputs = .request req :: rest) (hd : ¬ ∃ i, decode cfg.widths req = .ok i) :
    stepOf cfg s = .next (s.takeInput rest).misuse := by
  have hstep : stepOf cfg s = requestOf cfg req (s.takeInput rest) := by simp only [stepOf, hs]
  obtain ⟨i, hi, -⟩ | ⟨e, -, hr⟩ := requestOf_cases cfg req (s.takeInput rest)
  · exact absurd ⟨i, hi⟩ hd
  · exact hstep.trans hr

theorem exists_decode_eq_ok_iff (w : Widths) (req : List Bool) : (∃ i, decode w req = .ok i) ↔
    ∃ o : Opcode, req.take 8 = Bits.ofVec o.byte ∧ req.length = 8 + o.payloadLength w := by
  constructor
  · rintro ⟨i, hi⟩
    obtain ⟨o, hop, hlen, -⟩ := decode_eq_ok_iff.mp hi
    exact ⟨o, hop, hlen⟩
  · rintro ⟨o, hop, hlen⟩
    exact ⟨_, decode_eq_ok_iff.mpr ⟨o, hop, hlen, rfl⟩⟩

/-- Settles O3: the requests that decode are those of a listed opcode and its length; a step refuses the others. -/
theorem reservedOpcodeOrWrongLengthIsMisuse : Obligations.ReservedOpcodeOrWrongLengthIsMisuse := by
  refine ⟨by decide +kernel, exists_decode_eq_ok_iff, fun s req rest hs hreq => ?_⟩
  rw [← exists_decode_eq_ok_iff] at hreq
  rw [step_eq_stepOf, stepOf_request_refused (cfg := Config.chip) hs hreq]
  rfl

/-! Responses -/

/-- A command that goes on delivers one response, MISUSE or a result of its opcode's length, and leaves the inputs. -/
theorem runInstr_delivers {i : Instr} {s t : StateOf N} (h : runInstr cfg i s = .next t) :
    ∃ r, t.responses = s.responses ++ [r] ∧ t.inputs = s.inputs ∧
      (r = .misuse ∨ ∃ payload, r = .ok payload ∧ payload.length = i.opcode.resultLength) := by
  cases i with
  | sqenc pitch l vuv mag =>
    obtain hr | ⟨b, hr⟩ | ⟨f, -, hr⟩ := runSqenc_cases cfg pitch l vuv mag s <;> cases hr.symm.trans h
    · exact ⟨.misuse, rfl, rfl, .inl rfl⟩
    · refine ⟨_, StateOf.commitFrame_responses cfg s b, rfl, .inr ⟨_, rfl, ?_⟩⟩
      rw [List.length_append, Bits.length_ofVec, Laws.EncodedLength.length_encodeFields]
      rfl
  | sqgain db =>
    obtain ⟨-, hr⟩ | ⟨-, hr⟩ := runSqgain_cases cfg db s <;> cases hr.symm.trans h
    · exact ⟨.ok [], rfl, rfl, .inr ⟨[], rfl, rfl⟩⟩
    · exact ⟨.misuse, rfl, rfl, .inl rfl⟩
  | fldunpk v => cases h; exact ⟨_, rfl, rfl, .inr ⟨_, rfl, Laws.EncodedLength.length_encodeFields _⟩⟩
  | _ => cases h; exact ⟨_, rfl, rfl, .inr ⟨_, rfl, by simp [Instr.opcode, Opcode.resultLength]⟩⟩

/-- Settles O7: the status comes first, and an OK response has the result payload after it. -/
theorem everyCommandDeliversOneResponse : Obligations.EveryCommandDeliversOneResponse := by
  intro i s t h
  rw [exec_eq_runInstr, onMachine_eq_next] at h
  obtain ⟨r, hr, hin, rfl | ⟨payload, rfl, hlen⟩⟩ := runInstr_delivers h
  · exact ⟨.misuse, hr, hin, .inl ⟨rfl, rfl⟩⟩
  · refine ⟨.ok payload, hr, hin, .inr ⟨?_, ?_⟩⟩
    · exact List.take_left' (Bits.length_ofVec _)
    · rw [Response.bits, List.length_append, Bits.length_ofVec, hlen]

/-! The checks of SQENC and SQGAIN (R132, R181) -/

/-- The checks read L and the magnitudes up to L. -/
theorem frameAccepted_voiceFrame (cfg : Params N) (pitch : Nat) (l : BitVec 8) (vuv : List Bool) (mag : List Nat) :
    frameAccepted cfg (voiceFrame cfg pitch l vuv mag) =
      (decide (l.toNat ≤ cfg.lMax) && ((mag.take l.toNat).map (numOfBits cfg)).all cfg.num.finite) := by
  rw [frameAccepted, List.map_take]
  rfl

/-- The machine accepts a frame of up to 56 harmonics whose magnitudes are finite. -/
theorem frameAccepted_chip_iff {pitch : Nat} {l : BitVec 8} {vuv : List Bool} {mag : List Nat} :
    frameAccepted Config.chip (voiceFrame Config.chip pitch l vuv mag) = true ↔
      l.toNat ≤ 56 ∧ ∀ m ∈ mag.take l.toNat, F32.finite (BitVec.ofNat 32 m) = true := by
  rw [frameAccepted_voiceFrame, Bool.and_eq_true, decide_eq_true_eq, List.all_map, List.all_eq_true]
  rfl

/-- Settles O53: the checks fail. -/
theorem badOperandsAreMisuse : Obligations.BadOperandsAreMisuse := by
  refine ⟨fun pitch l vuv mag s hbad => ?_, fun db s hdb => ?_⟩
  · have hrefused : ¬ frameAccepted Config.chip (voiceFrame Config.chip pitch l vuv mag) = true := by
      rw [frameAccepted_chip_iff]
      rintro ⟨hl, hfinite⟩
      obtain hbig | ⟨m, hm, hnot⟩ := hbad
      · omega
      · rw [hfinite m hm] at hnot
        cases hnot
    rw [exec_eq_runInstr]
    exact congrArg onMachine (runSqenc_refused hrefused)
  · have hrefused : ¬ Config.chip.num.finite (numOfBits Config.chip db) = true := ne_true_of_eq_false hdb
    rw [exec_eq_runInstr]
    exact congrArg onMachine (runSqgain_refused hrefused s.toStateOf)

/-! What SQENC reads of a frame (R55) -/

/-- The entries up to L make up what is read of a frame's arrays. -/
theorem harmonics_voiceFrame (cfg : Params N) (pitch : Nat) (l : BitVec 8) (vuv : List Bool) (mag : List Nat) :
    harmonics (voiceFrame cfg pitch l vuv mag) =
      (vuv.take l.toNat).zip ((mag.take l.toNat).map (numOfBits cfg)) := by
  rw [harmonics, List.map_take]
  exact List.take_zipWith

/-- Stages 1 to 8 read the pitch, L and the harmonics up to L of a frame. -/
theorem sqFields_congr {f g : VoiceFrame N} (hpitch : f.pitch = g.pitch) (hl : f.l = g.l)
    (hh : harmonics f = harmonics g) (w : List (EnvRead N)) (gamma gadj : N) :
    sqFields cfg f w gamma gadj = sqFields cfg g w gamma gadj := by
  simp only [sqFields, quantize, hpitch, hl, hh]

/-- So does all of SQENC: frames that agree there give the same outcome. -/
theorem runSqenc_congr {pitch : Nat} {l : BitVec 8} {vuv vuv' : List Bool} {mag mag' : List Nat}
    (hvuv : vuv.take l.toNat = vuv'.take l.toNat) (hmag : mag.take l.toNat = mag'.take l.toNat) (s : StateOf N) :
    runSqenc cfg pitch l vuv mag s = runSqenc cfg pitch l vuv' mag' s := by
  have hchecks : frameAccepted cfg (voiceFrame cfg pitch l vuv mag) =
      frameAccepted cfg (voiceFrame cfg pitch l vuv' mag') := by
    rw [frameAccepted_voiceFrame, frameAccepted_voiceFrame, hmag]
  have hharmonics : harmonics (voiceFrame cfg pitch l vuv mag) = harmonics (voiceFrame cfg pitch l vuv' mag') := by
    rw [harmonics_voiceFrame, harmonics_voiceFrame, hvuv, hmag]
  have hfields := sqFields_congr (cfg := cfg) (f := voiceFrame cfg pitch l vuv mag)
    (g := voiceFrame cfg pitch l vuv' mag') rfl rfl hharmonics
  simp only [runSqenc, hchecks, hfields]
  rfl

/-- Settles O54: the frames agree on all that SQENC reads. -/
theorem sqencIgnoresEntriesAboveL : Obligations.SqencIgnoresEntriesAboveL := by
  intro pitch l vuv vuv' mag mag' s hvuv hmag
  rw [exec_eq_runInstr, exec_eq_runInstr]
  exact congrArg onMachine (runSqenc_congr hvuv hmag s.toStateOf)

/-! ENCODE (R60) -/

/-- SQENC on the machine, for a frame that passes the checks and a predictor in range. -/
theorem exec_sqenc_accepted {pitch : Nat} {l : BitVec 8} {vuv : List Bool} {mag : List Nat} {s : State}
    (hp : PredState.InRange 56 s.pred) (hl : l.toNat ≤ 56)
    (hmag : ∀ m ∈ mag.take l.toNat, F32.finite (BitVec.ofNat 32 m) = true) :
    ∃ w, envWindow Config.chip s.pred l.toNat = .ok w ∧
      exec (.sqenc pitch l vuv mag) s = .next ⟨s.toStateOf.commitFrame Config.chip
        (sqFields Config.chip (voiceFrame Config.chip pitch l vuv mag) w s.pred.gamma s.gadj)⟩ := by
  obtain ⟨w, hw⟩ := envWindow_eq_ok chip_floorPremise hp hl
  refine ⟨w, hw, ?_⟩
  rw [exec_eq_runInstr]
  exact congrArg onMachine (runSqenc_accepted (frameAccepted_chip_iff.mpr ⟨hl, hmag⟩) hw)

/-- ENCODE when SQENC commits the fields `b`: the host reads V at the head of the response and moves it on. -/
theorem pseudoEncode_of_commitFrame {pitch : Nat} {l : BitVec 8} {vuv : List Bool} {mag : List Nat} {s : State}
    {b : Fields} (h : exec (.sqenc pitch l vuv mag) s = .next ⟨s.toStateOf.commitFrame Config.chip b⟩) :
    pseudoEncode pitch l vuv mag s =
      exec (.fecpack (fldPack Config.chip b)) ⟨s.toStateOf.commitFrame Config.chip b⟩ := by
  have hvoice : (s.toStateOf.commitFrame Config.chip b).responses.getLast?.bind voiceOfResponse =
      some (fldPack Config.chip b) := by
    rw [StateOf.commitFrame_responses, List.getLast?_concat, Option.bind_some, voiceOfResponse,
      Bits.field_ofVec_append]
  simp only [pseudoEncode, h, hvoice]

/-- Settles O60: SQENC commits the fields of the frame, and FECPACK answers the frame of their V. -/
theorem pseudoEncodeIsSqencThenFecpack : Obligations.PseudoEncodeIsSqencThenFecpack := by
  intro pitch l vuv mag s hp hl hmag
  obtain ⟨w, hw, hexec⟩ := exec_sqenc_accepted (pitch := pitch) (vuv := vuv) hp hl hmag
  have hencode := pseudoEncode_of_commitFrame hexec
  refine ⟨w, _, _, hw, rfl, hexec, StateOf.commitFrame_responses .., hencode, hencode.trans ?_⟩
  refine congrArg Host.Outcome.next (State.ext_fields rfl rfl rfl ?_)
  exact List.append_assoc s.responses _ _

end Sys2Proof.Machine
end

section
/-!
PROOF. Tables that list positions: what a loop writes to distinct positions stands there at its end. So the interleaver
is read back (R100, R103), a packed voice payload comes back (R60, R114), and every field bit is where the layout puts
it (R122).
-/

namespace Sys2Proof

/-- A property that one item of a loop brings about, and that no item destroys, holds at its end. -/
theorem foldl_of_mem {σ ι : Type} {p : σ → Prop} {write : σ → ι → σ} {l : List ι} {i : ι} (hi : i ∈ l)
    (hset : ∀ s, p (write s i)) (hkeep : ∀ s j, p s → p (write s j)) (s : σ) : p (l.foldl write s) := by
  induction l generalizing s with
  | nil => cases hi
  | cons j l ih =>
    obtain rfl | hmem := List.mem_cons.mp hi
    · exact List.foldlRecOn l write (hset s) fun s hs j _ => hkeep s j hs
    · exact ih hmem (write s j)

namespace Bits

theorem vec_getMsbD {n : Nat} {s : List Bool} (h : s.length = n) {i : Nat} (hi : i < n) :
    (vec n s).getMsbD i = s[i] := by
  have hget : (ofVec (vec n s))[i]'(by simpa using hi) = (vec n s).getMsbD i := by simp [ofVec]
  simp only [← hget, ofVec_vec h]

end Bits

namespace Machine

variable {N : Type} {cfg : Params N}

/-! The interleaver (R100 to R103) -/

section Tables

variable {n : Nat} {table : Fin n → Fin 72}

/-- A block written through a table without repetition is found at the table's positions (R101). -/
theorem scatter_getMsbD (ht : table.Injective) (x : BitVec n) (f : Frame72) (i : Fin n) :
    (scatter table x f).getMsbD (table i) = x.getMsbD i := by
  refine foldl_of_mem (p := fun f : Frame72 => f.getMsbD (table i) = x.getMsbD i) (List.mem_finRange i)
    (fun f => ?_) (fun f j hf => ?_) f
  · rw [Bits.setAt_getMsbD _ _ _ _ (table i).isLt, if_pos rfl]
  · rw [Bits.setAt_getMsbD _ _ _ _ (table j).isLt]
    split
    next hij => rw [ht (Fin.ext hij)]
    next => exact hf

/-- The positions outside the table keep their values. -/
theorem scatter_getMsbD_of_ne {q : Fin 72} (hq : ∀ i, table i ≠ q) (x : BitVec n) (f : Frame72) :
    (scatter table x f).getMsbD q = f.getMsbD q := by
  refine List.foldlRecOn (motive := fun g : Frame72 => g.getMsbD q = f.getMsbD q) _ _ rfl fun g hg i _ => ?_
  rw [Bits.setAt_getMsbD _ _ _ _ (table i).isLt, if_neg fun h => hq i (Fin.ext h.symm), hg]

/-- A block is read from the table's positions (R102). -/
theorem gather_getMsbD (f : Frame72) (i : Fin n) : (gather table f).getMsbD i = f.getMsbD (table i) := by
  rw [gather, Bits.vec_getMsbD (by simp) i.isLt]
  simp

theorem gather_eq {f : Frame72} {x : BitVec n} (h : ∀ i, f.getMsbD (table i) = x.getMsbD i) : gather table f = x :=
  BitVec.eq_of_getMsbD_eq fun i hi => (gather_getMsbD f ⟨i, hi⟩).trans (h ⟨i, hi⟩)

end Tables

/-- The three tables have no repetition, and no two have a position in common (R100). -/
structure TablesDisjoint (cfg : Params N) : Prop where
  injA : cfg.ilvA.Injective
  injB : cfg.ilvB.Injective
  injC : cfg.ilvC.Injective
  neAB : ∀ i j, cfg.ilvA i ≠ cfg.ilvB j
  neAC : ∀ i j, cfg.ilvA i ≠ cfg.ilvC j
  neBC : ∀ i j, cfg.ilvB i ≠ cfg.ilvC j

theorem InterleaverWf.tablesDisjoint (h : InterleaverWf cfg) : TablesDisjoint cfg := by
  have hnodup : (List.ofFn cfg.ilvA ++ List.ofFn cfg.ilvB ++ List.ofFn cfg.ilvC).Nodup :=
    List.nodup_iff_count_le_one.mpr fun p => (h p).le
  obtain ⟨hab, hc, hdisjC⟩ := List.nodup_append'.mp hnodup
  obtain ⟨ha, hb, hdisjB⟩ := List.nodup_append'.mp hab
  simp only [List.disjoint_append_left] at hdisjC
  have hne {m n : Nat} {f : Fin m → Fin 72} {g : Fin n → Fin 72} (hd : (List.ofFn f).Disjoint (List.ofFn g))
      (i : Fin m) (j : Fin n) : f i ≠ g j := fun he =>
    hd (List.mem_ofFn.mpr ⟨i, rfl⟩) (List.mem_ofFn.mpr ⟨j, he.symm⟩)
  exact ⟨List.nodup_ofFn.mp ha, List.nodup_ofFn.mp hb, List.nodup_ofFn.mp hc, hne hdisjB, hne hdisjC.1, hne hdisjC.2⟩

/-- The three blocks of a frame are read back as they were packed (R103). -/
theorem ilvUnpack_ilvPack (h : InterleaverWf cfg) (a : Word24) (b : Word23) (c : Word25) :
    ilvUnpack cfg (ilvPack cfg a b c) = (a, b, c) := by
  obtain ⟨injA, injB, injC, neAB, neAC, neBC⟩ := h.tablesDisjoint
  have hA : gather cfg.ilvA (ilvPack cfg a b c) = a := gather_eq fun i => by
    rw [ilvPack, scatter_getMsbD_of_ne fun j => (neAC i j).symm, scatter_getMsbD_of_ne fun j => (neAB i j).symm,
      scatter_getMsbD injA]
  have hB : gather cfg.ilvB (ilvPack cfg a b c) = b := gather_eq fun i => by
    rw [ilvPack, scatter_getMsbD_of_ne fun j => (neBC i j).symm, scatter_getMsbD injB]
  have hC : gather cfg.ilvC (ilvPack cfg a b c) = c := gather_eq fun i => by rw [ilvPack, scatter_getMsbD injC]
  rw [ilvUnpack, hA, hB, hC]

/-! The frame codec (R110 to R114) -/

/-- A codeword received without an error is decoded to its data, with no error counted (R76). -/
theorem dec24_enc24 (hc : CodeWf cfg) (d : Data12) : dec24 cfg (enc24 cfg d) = (d, 0) := by
  simpa [show Bits.wt 0#24 = 0 by decide] using upToThreeErrorsAreCorrected24 N cfg hc d 0#24 (by decide)

theorem dec23_enc23 (hc : CodeWf cfg) (d : Data12) : dec23 cfg (enc23 cfg d) = (d, 0) := by
  simpa [show Bits.wt 0#23 = 0 by decide] using upToThreeErrorsAreCorrected23 N cfg hc d 0#23 (by decide)

/-- A voice payload is the join of its three parts (R110). -/
theorem joinVoice_parts (v : Voice49) : joinVoice (voiceU0 v) (voiceU1 v) (voiceU2 v) = v := by
  rw [joinVoice, voiceU0, voiceU1, voiceU2, Bits.slice, Bits.slice, Bits.slice,
    BitVec.extractLsb'_append_extractLsb'_eq_extractLsb' (by decide),
    BitVec.extractLsb'_append_extractLsb'_eq_extractLsb' (by decide)]
  exact BitVec.extractLsb'_eq_self

/-- A packed voice payload comes back with no error counted (R114). -/
theorem fecUnpack_fecPack (hc : CodeWf cfg) (hi : InterleaverWf cfg) (v : Voice49) :
    fecUnpack cfg (fecPack cfg v) = (v, 0, 0) := by
  have hmask (x m : Word23) : x ^^^ m ^^^ m = x := by rw [BitVec.xor_assoc, BitVec.xor_self, BitVec.xor_zero]
  simp only [fecPack, fecUnpack, ilvUnpack_ilvPack hi, dec24_enc24 hc, hmask, dec23_enc23 hc, joinVoice_parts]

/-- FECUNPK of a packed voice payload answers it and ERR = 0. -/
theorem runFecunpk_fecPack (hc : CodeWf cfg) (hi : InterleaverWf cfg) (v : Voice49) (s : StateOf N) :
    runFecunpk cfg (fecPack cfg v) s = .next (s.respond (Bits.ofVec v ++ [false, false, false])) := by
  have herr : Bits.ofVec (errField 0 0) = [false, false, false] := by decide
  simp only [runFecunpk, fecUnpack_fecPack hc hi, herr]

/-- Settles O36: the machine's code and interleaver meet R9. -/
theorem fecunpkOfFecpackAnswersThePayload : Obligations.FecunpkOfFecpackAnswersThePayload := by
  intro v s
  have hunpack := congrArg onMachine (runFecunpk_fecPack chip_code chip_interleaver v
    (s.toStateOf.respond (Bits.ofVec (fecPack Config.chip v))))
  exact ⟨fecPack Config.chip v, _, _, rfl, rfl, hunpack, rfl⟩

/-! The field layout (R120, R122) -/

/-- Writing a field bit changes that bit alone in its field. -/
theorem fieldBit_setFieldBit_same (b : Fields) (f : Fin 9) {j : Nat} (hj : j < fieldWidth f) (k : Nat) (x : Bool) :
    fieldBit (setFieldBit b (f, j) x) (f, k) = if k = j then x else fieldBit b (f, k) := by
  have hwrite {n : Nat} (y : BitVec n) (hn : j < n) :
      (Bits.setBit y j x).getLsbD k = if k = j then x else y.getLsbD k := by
    simp only [Bits.setBit_getLsbD, hn, and_true]
  match f with
  | 0 | 1 | 2 | 3 | 4 | 5 | 6 | 7 | 8 => exact hwrite _ hj

/-- It leaves the other fields. -/
theorem fieldBit_setFieldBit_of_ne (b : Fields) {f g : Fin 9} (hfg : f ≠ g) (j k : Nat) (x : Bool) :
    fieldBit (setFieldBit b (f, j) x) (g, k) = fieldBit b (g, k) := by
  revert hfg
  fin_cases f <;> fin_cases g <;> simp [fieldBit, setFieldBit]

theorem fieldBit_setFieldBit (b : Fields) {q : FieldBit} (hq : q.2 < fieldWidth q.1) (p : FieldBit) (x : Bool) :
    fieldBit (setFieldBit b q x) p = if p = q then x else fieldBit b p := by
  obtain ⟨f, j⟩ := q
  obtain ⟨g, k⟩ := p
  by_cases hfg : f = g
  · subst hfg
    simp [fieldBit_setFieldBit_same b f hq]
  · rw [fieldBit_setFieldBit_of_ne b hfg, if_neg fun h => hfg (congrArg Prod.fst h).symm]

/-- No field bit occurs twice in the layout (R120). -/
theorem FieldMapWf.injective (h : FieldMapWf cfg) : cfg.fieldMap.Injective := by
  obtain ⟨hin, hcount⟩ := h
  refine List.nodup_ofFn.mp (List.nodup_iff_count_le_one.mpr fun q => ?_)
  by_cases hq : q ∈ List.ofFn cfg.fieldMap
  · obtain ⟨p, rfl⟩ := List.mem_ofFn.mp hq
    exact (hcount _ _ (hin p)).le
  · rw [List.count_eq_zero.mpr hq]
    exact Nat.zero_le 1

/-- Every field bit is read from its position (R122). -/
theorem fieldBit_fldUnpack (h : FieldMapWf cfg) (v : Voice49) (p : Fin 49) :
    fieldBit (fldUnpack cfg v) (cfg.fieldMap p) = v.getMsbD p := by
  refine foldl_of_mem (p := fun b => fieldBit b (cfg.fieldMap p) = v.getMsbD p) (List.mem_finRange p)
    (fun b => ?_) (fun b q hb => ?_) zeroFields
  · rw [fieldBit_setFieldBit b (h.1 p), if_pos rfl]
  · rw [fieldBit_setFieldBit b (h.1 q)]
    split
    next hpq => rw [h.injective hpq]
    next => exact hb

/-- Settles O38: the machine's layout meets R120; the examples are computed. -/
theorem fldunpkReadsEveryFieldBit : Obligations.FldunpkReadsEveryFieldBit := by
  refine ⟨fun v s => ⟨fldUnpack Config.chip v, fieldBit_fldUnpack chip_fieldMap v, rfl⟩, ?_, ?_⟩
  · decide +kernel
  · decide +kernel

end Machine

/-! Requests written out -/

/-- The written-out request of a well-formed command decodes to it. -/
theorem decode_of_encode_eq {w : Widths} {i : Instr} {req : List Bool} (h : i.wf w = true) (he : encode w i = req) :
    decode w req = .ok i :=
  he ▸ decodeOfEncodeGivesTheCommand w i h

/-- Settles O4: each request is the encoding of its command. -/
theorem writtenOutRequestsDecode : Obligations.WrittenOutRequestsDecode := by
  refine ⟨?_, ?_, ?_, ?_, ?_, ?_, ?_, ?_, ?_, ?_, ?_, ?_, ⟨?_, ?_⟩, ?_, ?_⟩ <;>
    exact decode_of_encode_eq (by decide +kernel) (by decide +kernel)

end Sys2Proof
end

section
/-!
PROOF. The two codes (R70 to R76): what one more position adds to a weight, the check bits as the remainder of a
division, the perfect (23,12) code: spheres of radius 3 about its codewords fill the space of 23-bit words.
-/

namespace Sys2Proof

namespace Bits

variable {m n : Nat}

/-! Concatenation, as arithmetic (R5) -/

theorem toNat_append_eq_add (x : BitVec m) (y : BitVec n) : (x ++ y).toNat = x.toNat * 2 ^ n + y.toNat := by
  rw [BitVec.toNat_append, ← Nat.shiftLeft_add_eq_or_of_lt y.isLt, Nat.shiftLeft_eq]

/-- One more position adds its bit to the weight. -/
theorem wt_append_bit (x : BitVec n) (y : BitVec 1) : wt (x ++ y) = wt x + y.toNat := by
  rw [wt, toNat_append_eq_add, Nat.pow_one, Nat.mul_comm, bitSum_two_mul_add n _ _ y.isLt, wt]

theorem dH_append_bit_le (a b : BitVec n) (p q : BitVec 1) : dH (a ++ p) (b ++ q) ≤ dH a b + 1 := by
  rw [dH, BitVec.xor_append, wt_append_bit, dH]
  have hbit : (p ^^^ q).toNat < 2 := (p ^^^ q).isLt
  omega

/-! The number of words of weight at most `k`: the volume of a sphere -/

/-- A bit above the sum's range adds nothing to it. -/
theorem bitSum_two_pow_add {i j : Nat} (h : j ≤ i) (v : Nat) : bitSum j (2 ^ i + v) = bitSum j v := by
  induction j with
  | zero => rfl
  | succ j ih =>
    rw [bitSum, bitSum, ih (by omega), ← Nat.toNat_testBit, ← Nat.toNat_testBit, Nat.testBit_two_pow_add_gt (by omega)]

theorem bitSum_succ_of_lt {v : Nat} (h : v < 2 ^ n) : bitSum (n + 1) v = bitSum n v := by
  rw [bitSum, Nat.div_eq_of_lt h]; rfl

theorem bitSum_succ_two_pow_add {v : Nat} (h : v < 2 ^ n) : bitSum (n + 1) (2 ^ n + v) = bitSum n v + 1 := by
  rw [bitSum, bitSum_two_pow_add le_rfl, ← Nat.toNat_testBit, Nat.testBit_two_pow_add_eq, Nat.testBit_lt_two_pow h]
  rfl

/-- Equivalent conditions count alike. -/
theorem count_eq_of_iff {p q : Nat → Prop} [DecidablePred p] [DecidablePred q] (h : ∀ v < n, p v ↔ q v) :
    Nat.count p n = Nat.count q n :=
  le_antisymm (Nat.count_mono_left fun v hv => (h v hv).mp) (Nat.count_mono_left fun v hv => (h v hv).mpr)

/-- By the top bit of the word, as in Pascal's rule. -/
theorem count_bitSum_le (n k : Nat) :
    Nat.count (fun v => bitSum n v ≤ k) (2 ^ n) = ∑ i ∈ Finset.range (k + 1), n.choose i := by
  induction n generalizing k with
  | zero => simp [bitSum, Finset.sum_range_succ']
  | succ n ih =>
    have hlow : Nat.count (fun v => bitSum (n + 1) v ≤ k) (2 ^ n) = ∑ i ∈ Finset.range (k + 1), n.choose i := by
      rw [← ih k]
      exact count_eq_of_iff fun v hv => by rw [bitSum_succ_of_lt hv]
    have hhigh : Nat.count (fun v => bitSum (n + 1) (2 ^ n + v) ≤ k) (2 ^ n) = ∑ i ∈ Finset.range k, n.choose i := by
      cases k with
      | zero =>
        refine Nat.count_iff_forall_not.mpr fun v hv => ?_
        rw [bitSum_succ_two_pow_add hv]; omega
      | succ k =>
        rw [← ih k]
        exact count_eq_of_iff fun v hv => by rw [bitSum_succ_two_pow_add hv, Nat.add_le_add_iff_right]
    rw [Nat.pow_succ, Nat.mul_two, Nat.count_add, hlow, hhigh, Finset.sum_range_succ',
      Finset.sum_range_succ' (n + 1).choose]
    simp only [Nat.choose_succ_succ', Finset.sum_add_distrib, Nat.choose_zero_right]
    omega

/-- The words of weight at most `k`, as the naturals counted. -/
def wtLeEquiv (n k : Nat) : {e : BitVec n // wt e ≤ k} ≃ {v : Nat // v < 2 ^ n ∧ bitSum n v ≤ k} where
  toFun e := ⟨e.val.toNat, e.val.isLt, e.property⟩
  invFun v := ⟨BitVec.ofNatLT v.val v.property.1, v.property.2⟩
  left_inv _ := rfl
  right_inv _ := rfl

theorem card_wt_le (n k : Nat) : Nat.card {e : BitVec n // wt e ≤ k} = ∑ i ∈ Finset.range (k + 1), n.choose i := by
  rw [Nat.card_congr (wtLeEquiv n k), ← count_bitSum_le, Nat.count_eq_card_filter_range]
  exact Nat.subtype_card _ fun v => by rw [Finset.mem_filter, Finset.mem_range]

theorem card_bitVec (n : Nat) : Nat.card (BitVec n) = 2 ^ n := by
  rw [Nat.card_congr BitVec.equivFin.toEquiv, Nat.card_fin]

end Bits

namespace Machine

variable {N : Type} {cfg : Params N}

/-! The check bits are the remainder of a division (R71) -/

/-- The product reads no coefficient of its first factor above those it is told of. -/
theorem gf2Mul_congr {n a b : Nat} (g : Nat) (h : ∀ i < n, a.testBit i = b.testBit i) :
    gf2Mul a g n = gf2Mul b g n := by
  induction n with
  | zero => rfl
  | succ n ih => rw [gf2Mul, gf2Mul, ih fun i hi => h i (by omega), h n (by omega)]

/-- One more quotient bit, in front of the others. -/
theorem gf2Mul_two_pow_add {n q : Nat} (g : Nat) (hq : q < 2 ^ n) :
    gf2Mul (2 ^ n + q) g (n + 1) = gf2Mul q g n ^^^ (g * 2 ^ n) := by
  rw [gf2Mul, gf2Mul_congr g fun i hi => Nat.testBit_two_pow_add_gt hi q, Nat.testBit_two_pow_add_eq,
    Nat.testBit_lt_two_pow hq]
  rfl

/-- A quotient bit of 0 in front. -/
theorem gf2Mul_succ_of_lt {n q : Nat} (g : Nat) (hq : q < 2 ^ n) : gf2Mul q g (n + 1) = gf2Mul q g n := by
  rw [gf2Mul, Nat.testBit_lt_two_pow hq]
  exact Nat.xor_zero _

theorem polyRem_succ_of_testBit {g n r : Nat} (h : r.testBit (n + 11) = true) :
    polyRem g (n + 1) r = polyRem g n (r ^^^ (g * 2 ^ n)) := by
  rw [Nat.testBit_eq_decide_div_mod_eq, decide_eq_true_eq] at h
  rw [polyRem, if_pos h]

theorem polyRem_succ_of_not_testBit {g n r : Nat} (h : r.testBit (n + 11) = false) :
    polyRem g (n + 1) r = polyRem g n r := by
  rw [Nat.testBit_eq_decide_div_mod_eq, decide_eq_false_iff_not] at h
  rw [polyRem, if_neg h]

/-- The division loop takes a multiple of the divisor from its operand. -/
theorem exists_gf2Mul_eq_xor_polyRem (g n r : Nat) : ∃ q < 2 ^ n, gf2Mul q g n = r ^^^ polyRem g n r := by
  induction n generalizing r with
  | zero => exact ⟨0, by decide, (Nat.xor_self r).symm⟩
  | succ n ih =>
    cases h : r.testBit (n + 11) with
    | true =>
      obtain ⟨q, hq, hmul⟩ := ih (r ^^^ (g * 2 ^ n))
      refine ⟨2 ^ n + q, by rw [Nat.pow_succ]; omega, ?_⟩
      rw [gf2Mul_two_pow_add g hq, hmul, polyRem_succ_of_testBit h, Nat.xor_right_comm, Nat.xor_assoc r,
        Nat.xor_self, Nat.xor_zero]
    | false =>
      obtain ⟨q, hq, hmul⟩ := ih r
      exact ⟨q, by rw [Nat.pow_succ]; omega, by rw [gf2Mul_succ_of_lt g hq, hmul, polyRem_succ_of_not_testBit h]⟩

/-- A number with its top bit clear is below that bit. -/
theorem lt_two_pow_of_testBit_eq_false {m x : Nat} (hx : x < 2 ^ (m + 1)) (hbit : x.testBit m = false) : x < 2 ^ m :=
  Nat.lt_pow_two_of_testBit x fun i hi =>
    (Nat.eq_or_lt_of_le hi).elim (fun h => h ▸ hbit) fun h =>
      Nat.testBit_lt_two_pow (hx.trans_le (Nat.pow_le_pow_right (by decide) h))

/-- By a divisor of degree 11 the loop clears every bit from 11 on. -/
theorem polyRem_lt {g : Nat} (hg : g < 2 ^ 12) (htop : g.testBit 11 = true) (n : Nat) {r : Nat}
    (hr : r < 2 ^ (n + 11)) : polyRem g n r < 2 ^ 11 := by
  induction n generalizing r with
  | zero => rwa [Nat.zero_add] at hr
  | succ n ih =>
    have hr' : r < 2 ^ (n + 11 + 1) := by rwa [Nat.add_right_comm] at hr
    cases h : r.testBit (n + 11) with
    | true =>
      have hgn : g * 2 ^ n < 2 ^ (n + 11 + 1) := by
        rw [Nat.add_assoc, Nat.pow_add, Nat.mul_comm]
        exact Nat.mul_lt_mul_of_pos_left hg (Nat.two_pow_pos n)
      have hgbit : (g * 2 ^ n).testBit (n + 11) = true := by
        simpa [Nat.testBit_mul_two_pow] using htop
      rw [polyRem_succ_of_testBit h]
      exact ih (lt_two_pow_of_testBit_eq_false (Nat.xor_lt_two_pow hr' hgn) (by rw [Nat.testBit_xor, h, hgbit]; rfl))
    | false =>
      rw [polyRem_succ_of_not_testBit h]
      exact ih (lt_two_pow_of_testBit_eq_false hr' h)

/-- The 11 check bits hold the whole remainder. -/
theorem toNat_par11 (htop : cfg.g23Poly.getLsbD 11 = true) (d : Data12) :
    (par11 cfg d).toNat = polyRem cfg.g23Poly.toNat 12 (d.toNat * 2 ^ 11) := by
  rw [par11, BitVec.toNat_ofNat]
  refine Nat.mod_eq_of_lt (polyRem_lt cfg.g23Poly.isLt htop 12 ?_)
  have hd : d.toNat < 2 ^ 12 := d.isLt
  omega

/-- Settles O20: the loop takes a multiple of g(x) and leaves 11 bits; it is linear; the unit words are computed. -/
theorem checkBitsAreALinearRemainder : Obligations.CheckBitsAreALinearRemainder := by
  refine ⟨fun N cfg htop => ⟨fun d => ?_, par11_xor cfg⟩, by decide +kernel⟩
  rw [toNat_par11 htop]
  exact exists_gf2Mul_eq_xor_polyRem _ _ _

/-! The encoders (R73, R74) and the parity bit (R72) -/

theorem toNat_enc23 (cfg : Params N) (d : Data12) : (enc23 cfg d).toNat = d.toNat * 2 ^ 11 + (par11 cfg d).toNat :=
  Bits.toNat_append_eq_add d (par11 cfg d)

theorem p24_lt_two (cfg : Params N) (c : Word23) : p24 cfg c < 2 := by
  rw [p24]; split <;> omega

theorem toNat_parityBit (cfg : Params N) (c : Word23) : (BitVec.ofNat 1 (p24 cfg c)).toNat = p24 cfg c := by
  rw [BitVec.toNat_ofNat, Nat.mod_eq_of_lt (p24_lt_two cfg c)]

theorem toNat_enc24 (cfg : Params N) (d : Data12) :
    (enc24 cfg d).toNat = (enc23 cfg d).toNat * 2 + p24 cfg (enc23 cfg d) := by
  rw [enc24, Bits.toNat_append_eq_add, toNat_parityBit, Nat.pow_one]

theorem wt_enc24 (cfg : Params N) (d : Data12) :
    Bits.wt (enc24 cfg d) = Bits.wt (enc23 cfg d) + p24 cfg (enc23 cfg d) := by
  rw [enc24, Bits.wt_append_bit, toNat_parityBit]

theorem exec_g23enc (d : Data12) (s : State) :
    exec (.g23enc d) s = .next { s with responses := s.responses ++ [.ok (Bits.ofVec (enc23 Config.chip d))] } := rfl

theorem exec_g24enc (d : Data12) (s : State) :
    exec (.g24enc d) s = .next { s with responses := s.responses ++ [.ok (Bits.ofVec (enc24 Config.chip d))] } := rfl

/-- Settles O18: the codeword is the data followed by the check bits; the examples are computed. -/
theorem g23encAnswersTheCodeword : Obligations.G23encAnswersTheCodeword := by
  refine ⟨fun d s => ⟨_, toNat_enc23 Config.chip d, exec_g23enc d s⟩, by decide +kernel, by decide +kernel, fun s => ?_⟩
  have hcw : enc23 Config.chip 0xABC#12 = 0x55E11E#23 := by decide +kernel
  rw [exec_g23enc, hcw]

/-- Settles O19: the machine's parity bit is that of even weight; the examples are computed. -/
theorem g24encAnswersTheExtendedCodeword : Obligations.G24encAnswersTheExtendedCodeword := by
  refine ⟨fun d s => ⟨_, _, toNat_enc23 Config.chip d, toNat_enc24 Config.chip d, exec_g24enc d s⟩, ?_⟩
  decide +kernel

/-- Settles O21: by the sense of the parity bit. -/
theorem parityBitFixesTheWeightParity : Obligations.ParityBitFixesTheWeightParity := by
  intro N cfg d
  rw [wt_enc24, p24]
  split <;> omega

/-! The (23,12) code is perfect -/

/-- A codeword and an error of weight up to 3. -/
abbrev Sent := Data12 × {e : Word23 // Bits.wt e ≤ 3}

/-- The word received when `s` is sent. -/
def received (cfg : Params N) (s : Sent) : Word23 := enc23 cfg s.1 ^^^ s.2.val

/-- The spheres of radius 3 about the codewords are disjoint. -/
theorem received_injective (hc : CodeWf cfg) : Function.Injective (received cfg) := by
  rintro ⟨d, e, he⟩ ⟨d', e', he'⟩ (h : enc23 cfg d ^^^ e = enc23 cfg d' ^^^ e')
  have hdec := upToThreeErrorsAreCorrected23 N cfg hc d e he
  rw [h, upToThreeErrorsAreCorrected23 N cfg hc d' e' he'] at hdec
  obtain rfl : d' = d := congrArg Prod.fst hdec
  obtain rfl : e = e' := (BitVec.xor_right_inj _).mp h
  rfl

/-- Together they have as many words as there are: 2^12 (1 + 23 + 253 + 1771) = 2^23. -/
theorem card_sent : Nat.card Sent = Nat.card Word23 := by
  rw [Nat.card_prod, Bits.card_wt_le, Bits.card_bitVec, Bits.card_bitVec]
  decide

/-- So every word is within distance 3 of a codeword. -/
theorem exists_enc23_xor_eq (hc : CodeWf cfg) (r : Word23) : ∃ d e, Bits.wt e ≤ 3 ∧ enc23 cfg d ^^^ e = r := by
  obtain ⟨⟨d, e, he⟩, hr⟩ :=
    ((Nat.bijective_iff_injective_and_card _).mpr ⟨received_injective hc, card_sent⟩).surjective r
  exact ⟨d, e, he, hr⟩

/-- And every word of 24 positions within distance 4. -/
theorem exists_dH_enc24_le_four (hc : CodeWf cfg) (r : Word24) : ∃ d, Bits.dH r (enc24 cfg d) ≤ 4 := by
  obtain ⟨d, e, he, hr⟩ := exists_enc23_xor_eq hc (r.extractLsb' 1 23)
  refine ⟨d, ?_⟩
  have hsplit : r.extractLsb' 1 23 ++ r.extractLsb' 0 1 = r := BitVec.extractLsb'_append_extractLsb' (w := 23)
  have h := Bits.dH_append_bit_le (r.extractLsb' 1 23) (enc23 cfg d) (r.extractLsb' 0 1)
    (BitVec.ofNat 1 (p24 cfg (enc23 cfg d)))
  rw [hsplit, ← hr, Bits.dH_xor_self] at h
  rw [enc24]
  omega

/-! The decoders (R75, R76) -/

/-- Distances rank as natural numbers do. -/
theorem ranks_natLt {n : Nat} (f : Fin n → Nat) : Ranks natLt f := by
  constructor <;> simp only [natLt, decide_eq_true_eq, decide_eq_false_iff_not] <;> omega

/-- An index before the one a search over distances answers has a greater distance. -/
theorem argminFirst_natLt_lt {hi : Nat} (f : Fin (hi + 1) → Nat) {j : Fin (hi + 1)} (hj : j < argminFirst natLt f) :
    f (argminFirst natLt f) < f j :=
  of_decide_eq_true ((ranks_natLt f).firstLeast_argminFirst.2 j hj)

theorem dH_dec24_le (cfg : Params N) (r : Word24) (d : Data12) :
    Bits.dH r (enc24 cfg (dec24 cfg r).1) ≤ Bits.dH r (enc24 cfg d) :=
  argminFirst_natLt_le (hi := 4095) (fun i => Bits.dH r (enc24 cfg (BitVec.ofFin i))) d.toFin

/-- Of the data values at the least distance the search answers the smallest (D10). -/
theorem dec24_le_of_dH_eq {r : Word24} {d : Data12}
    (h : Bits.dH r (enc24 cfg d) = Bits.dH r (enc24 cfg (dec24 cfg r).1)) : (dec24 cfg r).1.toNat ≤ d.toNat := by
  by_contra hlt
  have hfar := argminFirst_natLt_lt (hi := 4095) (fun i => Bits.dH r (enc24 cfg (BitVec.ofFin i))) (j := d.toFin)
    (Nat.lt_of_not_le hlt)
  exact absurd h (Nat.ne_of_gt hfar)

theorem exec_g23dec (cw : Word23) (s : State) :
    exec (.g23dec cw) s = .next { s with responses := s.responses ++
      [.ok (Bits.ofVec (dec23 Config.chip cw).1 ++ Bits.ofVec (countField23 (dec23 Config.chip cw).2))] } := rfl

theorem exec_g24dec (cw : Word24) (s : State) :
    exec (.g24dec cw) s = .next { s with responses := s.responses ++
      [.ok (Bits.ofVec (dec24 Config.chip cw).1 ++ Bits.ofVec (countField24 (dec24 Config.chip cw).2))] } := rfl

/-- Settles O22: the word is a codeword with at most 3 errors, and no other codeword is as near. -/
theorem g23decAnswersTheNearestCodeword : Obligations.G23decAnswersTheNearestCodeword := by
  intro cw s
  obtain ⟨d, e, he, rfl⟩ := exists_enc23_xor_eq chip_code cw
  refine ⟨d, countField23 (Bits.wt e), ?_, fun d' hne => ?_, ?_⟩
  · rw [Bits.dH_xor_self, countField23, BitVec.toNat_ofNat]
    omega
  · exact Nat.lt_of_not_le fun hle => hne (eq_sent_of_dH_le (fun _ _ => seven_le_dH_enc23 chip_code) he hle)
  · rw [exec_g23dec, upToThreeErrorsAreCorrected23 _ _ chip_code d e he]

/-- Settles O23: a codeword at distance 4 or less exists, so the search's least distance fits 3 bits. -/
theorem g24decAnswersTheFirstNearestCodeword : Obligations.G24decAnswersTheFirstNearestCodeword := by
  intro cw s
  obtain ⟨d, hd⟩ := exists_dH_enc24_le_four chip_code cw
  have hfour := (dH_dec24_le Config.chip cw d).trans hd
  have hcnt : (countField24 (dec24 Config.chip cw).2).toNat = Bits.dH cw (enc24 Config.chip (dec24 Config.chip cw).1) :=
    (BitVec.toNat_ofNat _ _).trans (Nat.mod_eq_of_lt (Nat.lt_of_le_of_lt hfour (by decide)))
  exact ⟨_, _, hcnt, hcnt.le.trans hfour, fun d' => ⟨dH_dec24_le Config.chip cw d', dec24_le_of_dH_eq⟩,
    exec_g24dec cw s⟩

end Machine
end Sys2Proof
end

section
namespace Sys2Proof
namespace Machine

/-! The scrambler (R90, R91) -/

/-- Every iterate is a 16-bit value: `p0` shifts the 12-bit seed by 4, and each later one is a residue modulo 65536. -/
theorem scrIterate_lt (seed : Data12) (i : Nat) : scrIterate seed i < 65536 := by
  cases i with
  | zero =>
    have hseed := seed.isLt
    rw [scrIterate]
    omega
  | succ i => exact Nat.mod_lt _ (by decide)

/-- The top bit of a 16-bit value says whether it reaches half the range. -/
theorem testBit_fifteen {x : Nat} (hx : x < 65536) : x.testBit 15 = decide (32768 ≤ x) := by
  rw [Nat.testBit_eq_decide_div_mod_eq, decide_eq_decide]
  omega

theorem scrMask_getMsbD (seed : Data12) {j : Nat} (hj : j < 23) :
    (scrMask seed).getMsbD j = (scrIterate seed (j + 1)).testBit 15 := by
  rw [scrMask, Bits.vec_getMsbD (by simp) hj, testBit_fifteen (scrIterate_lt seed _)]
  simp

theorem exec_scrmask (seed : Data12) (s : State) :
    exec (.scrmask seed) s = .next { s with responses := s.responses ++ [.ok (Bits.ofVec (scrMask seed))] } := rfl

/-- Settles O26: the recurrence is `scrIterate`, whose iterates are below 65536, so bit 15 is the test against 32768 by
which `scrMask` fills its positions; the example is computed. -/
theorem scrmaskAnswersTheRecurrence : Obligations.ScrmaskAnswersTheRecurrence := by
  refine ⟨fun seed s => ⟨scrIterate seed, scrMask seed, rfl, fun _ => rfl, fun _ => scrMask_getMsbD seed,
    exec_scrmask seed s⟩, fun s => ?_⟩
  have hmask : scrMask 0#12 = 0x216623#23 := by decide
  rw [exec_scrmask, hmask]

end Machine
end Sys2Proof
end

section
namespace Sys2Proof
namespace Machine

/-! The interleaver's commands (R100 to R103) -/

section AnyInstance

variable {N : Type} {cfg : Params N}

/-- Every frame position is in one of the three tables (R100). -/
theorem InterleaverWf.position_mapped (h : InterleaverWf cfg) (p : Fin 72) :
    (∃ i, cfg.ilvA i = p) ∨ (∃ i, cfg.ilvB i = p) ∨ ∃ i, cfg.ilvC i = p := by
  have hmem : p ∈ List.ofFn cfg.ilvA ++ List.ofFn cfg.ilvB ++ List.ofFn cfg.ilvC :=
    List.count_pos_iff.mp (by rw [h p]; exact Nat.one_pos)
  simpa only [List.mem_append, List.mem_ofFn, or_assoc] using hmem

/-- Two frames whose blocks hold the same bits at a table's positions agree there. -/
theorem getMsbD_eq_of_gather_eq {n : Nat} {table : Fin n → Fin 72} {f g : Frame72}
    (h : gather table f = gather table g) (i : Fin n) : f.getMsbD (table i) = g.getMsbD (table i) := by
  rw [← gather_getMsbD, h, gather_getMsbD]

/-- A frame is determined by its three blocks: the tables leave no position out. -/
theorem ilvUnpack_injective (h : InterleaverWf cfg) : Function.Injective (ilvUnpack cfg) := by
  intro f g hfg
  obtain ⟨hA, hB, hC⟩ : gather cfg.ilvA f = gather cfg.ilvA g ∧ gather cfg.ilvB f = gather cfg.ilvB g ∧
      gather cfg.ilvC f = gather cfg.ilvC g := by
    simpa only [ilvUnpack, Prod.mk.injEq] using hfg
  refine BitVec.eq_of_getMsbD_eq fun k hk => ?_
  obtain ⟨i, hi⟩ | ⟨i, hi⟩ | ⟨i, hi⟩ := h.position_mapped ⟨k, hk⟩
  · simpa only [hi] using getMsbD_eq_of_gather_eq hA i
  · simpa only [hi] using getMsbD_eq_of_gather_eq hB i
  · simpa only [hi] using getMsbD_eq_of_gather_eq hC i

/-- The blocks of a frame pack to that frame: both have the same blocks (R103). -/
theorem ilvPack_ilvUnpack (h : InterleaverWf cfg) (f : Frame72) :
    ilvPack cfg (ilvUnpack cfg f).1 (ilvUnpack cfg f).2.1 (ilvUnpack cfg f).2.2 = f :=
  ilvUnpack_injective h (ilvUnpack_ilvPack h _ _ _)

/-- A packed frame holds every block bit at its mapped position (R101). -/
theorem ilvPack_getMsbD (h : InterleaverWf cfg) (a : Word24) (b : Word23) (c : Word25) :
    (∀ i, (ilvPack cfg a b c).getMsbD (cfg.ilvA i) = a.getMsbD i) ∧
    (∀ i, (ilvPack cfg a b c).getMsbD (cfg.ilvB i) = b.getMsbD i) ∧
    ∀ i, (ilvPack cfg a b c).getMsbD (cfg.ilvC i) = c.getMsbD i := by
  obtain ⟨hA, hB, hC⟩ : gather cfg.ilvA (ilvPack cfg a b c) = a ∧ gather cfg.ilvB (ilvPack cfg a b c) = b ∧
      gather cfg.ilvC (ilvPack cfg a b c) = c := by
    simpa only [ilvUnpack, Prod.mk.injEq] using ilvUnpack_ilvPack h a b c
  refine ⟨fun i => ?_, fun i => ?_, fun i => ?_⟩
  · rw [← gather_getMsbD, hA]
  · rw [← gather_getMsbD, hB]
  · rw [← gather_getMsbD, hC]

end AnyInstance

/-- Settles O29: what is packed stands at disjoint positions, and no position is left out. -/
theorem interleaverIsABijection : Obligations.InterleaverIsABijection :=
  fun _ _ h => ⟨ilvUnpack_ilvPack h, ilvPack_ilvUnpack h⟩

theorem exec_ilvpack (a : Word24) (b : Word23) (c : Word25) (s : State) :
    exec (.ilvpack a b c) s =
      .next { s with responses := s.responses ++ [.ok (Bits.ofVec (ilvPack Config.chip a b c))] } := rfl

theorem exec_ilvunpk (f : Frame72) (s : State) :
    exec (.ilvunpk f) s = .next { s with responses := s.responses ++
      [.ok (Bits.ofVec (gather Config.chip.ilvA f) ++ Bits.ofVec (gather Config.chip.ilvB f) ++
        Bits.ofVec (gather Config.chip.ilvC f))] } := rfl

/-- Settles O27: the machine's tables meet R100; the examples are computed. -/
theorem ilvpackWritesEveryBlockBit : Obligations.IlvpackWritesEveryBlockBit := by
  refine ⟨fun a b c s => ?_, by decide +kernel, by decide +kernel, by decide +kernel⟩
  obtain ⟨hA, hB, hC⟩ := ilvPack_getMsbD chip_interleaver a b c
  exact ⟨ilvPack Config.chip a b c, hA, hB, hC, exec_ilvpack a b c s⟩

/-- Settles O28: each block is gathered from its table's positions; the example is computed. -/
theorem ilvunpkReadsEveryBlockBit : Obligations.IlvunpkReadsEveryBlockBit :=
  ⟨fun f s => ⟨_, _, _, gather_getMsbD f, gather_getMsbD f, gather_getMsbD f, exec_ilvunpk f s⟩,
    by decide +kernel⟩

end Machine
end Sys2Proof
end

section
namespace Sys2Proof
namespace Machine

/-! The frame codec's commands and what channel errors do to them (R110 to R114) -/

section AnyInstance

variable {N : Type} {cfg : Params N}

/-! Flips in a frame are flips in its blocks -/

theorem gather_xor {n : Nat} (table : Fin n → Fin 72) (f g : Frame72) :
    gather table (f ^^^ g) = gather table f ^^^ gather table g :=
  gather_eq fun i => by rw [BitVec.getMsbD_xor, BitVec.getMsbD_xor, gather_getMsbD, gather_getMsbD]

theorem ilvUnpack_xor (f g : Frame72) :
    ilvUnpack cfg (f ^^^ g) = ((ilvUnpack cfg f).1 ^^^ (ilvUnpack cfg g).1,
      (ilvUnpack cfg f).2.1 ^^^ (ilvUnpack cfg g).2.1, (ilvUnpack cfg f).2.2 ^^^ (ilvUnpack cfg g).2.2) := by
  simp only [ilvUnpack, gather_xor]

/-- Flips given by block reach the blocks they are given for (R114). -/
theorem ilvUnpack_xor_ilvPack (hi : InterleaverWf cfg) (f : Frame72) (eA : Word24) (eB : Word23) (eC : Word25) :
    ilvUnpack cfg (f ^^^ ilvPack cfg eA eB eC) =
      ((ilvUnpack cfg f).1 ^^^ eA, (ilvUnpack cfg f).2.1 ^^^ eB, (ilvUnpack cfg f).2.2 ^^^ eC) := by
  rw [ilvUnpack_xor, ilvUnpack_ilvPack hi]

/-! The three parts of a voice payload (R110) -/

theorem joinVoice_xor (u0 u1 w0 w1 : Data12) (u2 w2 : Word25) :
    joinVoice (u0 ^^^ w0) (u1 ^^^ w1) (u2 ^^^ w2) = joinVoice u0 u1 u2 ^^^ joinVoice w0 w1 w2 := by
  have hpair := BitVec.xor_append (x₁ := u0) (x₂ := w0) (y₁ := u1) (y₂ := w1)
  have hall := BitVec.xor_append (x₁ := u0 ++ u1) (x₂ := w0 ++ w1) (y₁ := u2) (y₂ := w2)
  exact (hall.trans (congrArg (· ++ (u2 ^^^ w2)) hpair)).symm

theorem joinVoice_getMsbD (u0 u1 : Data12) (u2 : Word25) :
    (∀ i < 12, (joinVoice u0 u1 u2).getMsbD i = u0.getMsbD i) ∧
    (∀ i < 12, (joinVoice u0 u1 u2).getMsbD (12 + i) = u1.getMsbD i) ∧
    ∀ i < 25, (joinVoice u0 u1 u2).getMsbD (24 + i) = u2.getMsbD i := by
  refine ⟨fun i hi => ?_, fun i hi => ?_, fun i _ => ?_⟩
  · rw [joinVoice, BitVec.getMsbD_append, if_neg (by omega), BitVec.getMsbD_append, if_neg (by omega)]
  · rw [joinVoice, BitVec.getMsbD_append, if_neg (by omega), BitVec.getMsbD_append, if_pos (by omega),
      Nat.add_sub_cancel_left]
  · rw [joinVoice, BitVec.getMsbD_append, if_pos (by omega), Nat.add_sub_cancel_left]

/-! Unpacking, and the counts (R112, R114) -/

/-- What is unpacked depends on the three blocks. -/
theorem fecUnpack_of_ilvUnpack_eq {f : Frame72} {a : Word24} {b : Word23} {c : Word25} {u0 u1 : Data12}
    {errA errB : Nat} (hf : ilvUnpack cfg f = (a, b, c)) (hA : dec24 cfg a = (u0, errA))
    (hB : dec23 cfg (b ^^^ scrMask u0) = (u1, errB)) : fecUnpack cfg f = (joinVoice u0 u1 c, errA, errB) := by
  simp only [fecUnpack, hf, hA, hB]

/-- Block B's flips pass through the descrambling: the mask of the corrected U0 is the one it was scrambled with. -/
theorem fecUnpack_fecPack_xor (hc : CodeWf cfg) (hi : InterleaverWf cfg) (v : Voice49) {eA : Word24} {eB : Word23}
    (hA : Bits.wt eA ≤ 3) (hB : Bits.wt eB ≤ 3) :
    fecUnpack cfg (fecPack cfg v ^^^ ilvPack cfg eA eB 0#25) = (v, Bits.wt eA, Bits.wt eB) := by
  have hmask (x m e : Word23) : x ^^^ m ^^^ e ^^^ m = x ^^^ e := by
    have hswap : x ^^^ m ^^^ e = x ^^^ e ^^^ m := by ac_rfl
    rw [hswap, BitVec.xor_assoc, BitVec.xor_self, BitVec.xor_zero]
  have hblocks := ilvUnpack_xor_ilvPack hi (fecPack cfg v) eA eB 0#25
  rw [fecPack, ilvUnpack_ilvPack hi, BitVec.xor_zero] at hblocks
  have hdecA := upToThreeErrorsAreCorrected24 N cfg hc (voiceU0 v) eA hA
  have hdecB := upToThreeErrorsAreCorrected23 N cfg hc (voiceU1 v) eB hB
  rw [← hmask _ (scrMask (voiceU0 v))] at hdecB
  rw [fecPack, fecUnpack_of_ilvUnpack_eq hblocks hdecA hdecB, joinVoice_parts]

/-- The code is perfect: every word is within 3 positions of a codeword (R75). -/
theorem dec23_count_le (hc : CodeWf cfg) (r : Word23) : (dec23 cfg r).2 ≤ 3 := by
  obtain ⟨d, e, he, rfl⟩ := exists_enc23_xor_eq hc r
  rwa [upToThreeErrorsAreCorrected23 N cfg hc d e he]

/-- One more position, the parity bit, adds at most one to the count (R76). -/
theorem dec24_count_le (hc : CodeWf cfg) (r : Word24) : (dec24 cfg r).2 ≤ 4 := by
  obtain ⟨d, hd⟩ := exists_dH_enc24_le_four hc r
  exact (dH_dec24_le cfg r d).trans hd

/-- The field of 3 bits holds the sum of the greatest counts (R53, R112). -/
theorem toNat_errField {errA errB : Nat} (hA : errA ≤ 4) (hB : errB ≤ 3) :
    (errField errA errB).toNat = errA + errB := by
  rw [errField, BitVec.toNat_ofNat]
  omega

end AnyInstance

theorem exec_fecpack (v : Voice49) (s : State) :
    exec (.fecpack v) s = .next { s with responses := s.responses ++ [.ok (Bits.ofVec (fecPack Config.chip v))] } :=
  rfl

theorem exec_fecunpk (f : Frame72) (s : State) :
    exec (.fecunpk f) s = .next { s with responses := s.responses ++
      [.ok (Bits.ofVec (fecUnpack Config.chip f).1 ++
        Bits.ofVec (errField (fecUnpack Config.chip f).2.1 (fecUnpack Config.chip f).2.2))] } := rfl

/-- Settles O33: the interleaver gives the blocks back, and both are codewords, block B under the mask of U0. -/
theorem fecRoundTripCountsNoError : Obligations.FecRoundTripCountsNoError :=
  fun _ _ hc hi v => fecUnpack_fecPack hc hi v

/-- Settles O34: flips reach their own blocks, where both decoders correct and count up to 3. -/
theorem fecCorrectsThreeFlipsPerBlock : Obligations.FecCorrectsThreeFlipsPerBlock :=
  fun _ _ hc hi v _ _ hA hB => fecUnpack_fecPack_xor hc hi v hA hB

/-- Settles O31: the parts are slices of the voice payload; the examples are computed. -/
theorem fecpackComposesTheFrame : Obligations.FecpackComposesTheFrame := by
  refine ⟨fun v s => ⟨voiceU0 v, voiceU1 v, voiceU2 v, fecPack Config.chip v, fun i hi => ?_, fun i hi => ?_,
    fun i hi => ?_, rfl, exec_fecpack v s⟩, by decide +kernel, by decide +kernel⟩
  · rw [voiceU0, Bits.slice_getMsbD v 0 12 i hi (by decide), Nat.zero_add]
  · exact Bits.slice_getMsbD v 12 12 i hi (by decide)
  · exact Bits.slice_getMsbD v 24 25 i hi (by decide)

/-- Settles O32: the counts are at most 4 and 3, so their sum fits the field of 3 bits. -/
theorem fecunpkDecodesEveryFrame : Obligations.FecunpkDecodesEveryFrame := by
  intro f s
  obtain ⟨hU0, hU1, hU2⟩ := joinVoice_getMsbD (dec24 Config.chip (ilvUnpack Config.chip f).1).1
    (dec23 Config.chip ((ilvUnpack Config.chip f).2.1 ^^^
      scrMask (dec24 Config.chip (ilvUnpack Config.chip f).1).1)).1 (ilvUnpack Config.chip f).2.2
  exact ⟨_, _, _, _, _, _, rfl, rfl, hU0, hU1, hU2,
    toNat_errField (dec24_count_le chip_code _) (dec23_count_le chip_code _), exec_fecunpk f s⟩

/-- Settles O35: blocks A and B are left as they are, and block C is U2. -/
theorem fecPassesBlockCThrough : Obligations.FecPassesBlockCThrough := by
  intro N cfg hi f eC
  have hblocks := ilvUnpack_xor_ilvPack hi f 0#24 0#23 eC
  rw [BitVec.xor_zero, BitVec.xor_zero] at hblocks
  have hjoin (u0 u1 : Data12) (u2 : Word25) :
      joinVoice u0 u1 (u2 ^^^ eC) = joinVoice u0 u1 u2 ^^^ joinVoice 0#12 0#12 eC := by
    simpa only [BitVec.xor_zero] using joinVoice_xor u0 u1 0#12 0#12 u2 eC
  rw [fecUnpack_of_ilvUnpack_eq hblocks rfl rfl, hjoin]
  rfl

end Machine
end Sys2Proof
end

section
namespace Sys2Proof
namespace Machine

/-! The field layout's commands (R120 to R124) -/

section AnyInstance

variable {N : Type} {cfg : Params N}

/-- Fields that agree in every field bit (R120) are the same fields. -/
theorem eq_of_fieldBit_eq {b c : Fields} (h : ∀ f, ∀ j < fieldWidth f, fieldBit b (f, j) = fieldBit c (f, j)) :
    b = c := by
  obtain ⟨⟩ := b
  obtain ⟨⟩ := c
  rw [Fields.mk.injEq]
  exact ⟨BitVec.eq_of_getLsbD_eq (h 0), BitVec.eq_of_getLsbD_eq (h 1), BitVec.eq_of_getLsbD_eq (h 2),
    BitVec.eq_of_getLsbD_eq (h 3), BitVec.eq_of_getLsbD_eq (h 4), BitVec.eq_of_getLsbD_eq (h 5),
    BitVec.eq_of_getLsbD_eq (h 6), BitVec.eq_of_getLsbD_eq (h 7), BitVec.eq_of_getLsbD_eq (h 8)⟩

/-- Every field bit has a position in the layout (R120). -/
theorem FieldMapWf.exists_position (h : FieldMapWf cfg) {f : Fin 9} {j : Nat} (hj : j < fieldWidth f) :
    ∃ p, cfg.fieldMap p = (f, j) := by
  obtain ⟨-, hcount⟩ := h
  have hmem : (f, j) ∈ List.ofFn cfg.fieldMap := List.count_pos_iff.mp (hcount f j hj ▸ Nat.one_pos)
  exact List.mem_ofFn.mp hmem

/-- Every position holds the field bit that the layout names there (R121). -/
theorem fldPack_getMsbD (b : Fields) (p : Fin 49) : (fldPack cfg b).getMsbD p = fieldBit b (cfg.fieldMap p) := by
  rw [fldPack, Bits.vec_getMsbD (by simp) p.isLt]
  simp

/-- Packed fields are read back: every field bit has a position, and is written to it and read from it. -/
theorem fldUnpack_fldPack (h : FieldMapWf cfg) (b : Fields) : fldUnpack cfg (fldPack cfg b) = b := by
  refine eq_of_fieldBit_eq fun f j hj => ?_
  obtain ⟨p, hp⟩ := h.exists_position hj
  rw [← hp, fieldBit_fldUnpack h, fldPack_getMsbD]

/-- Fields read from a payload pack to it. -/
theorem fldPack_fldUnpack (h : FieldMapWf cfg) (v : Voice49) : fldPack cfg (fldUnpack cfg v) = v :=
  BitVec.eq_of_getMsbD_eq fun i hi =>
    (fldPack_getMsbD (fldUnpack cfg v) ⟨i, hi⟩).trans (fieldBit_fldUnpack h v ⟨i, hi⟩)

end AnyInstance

theorem exec_fldpack (b : Fields) (s : State) :
    exec (.fldpack b) s = .next { s with responses := s.responses ++ [.ok (Bits.ofVec (fldPack Config.chip b))] } :=
  rfl

/-- Settles O39: a layout that meets R120 names every field bit at one position, so each command undoes the other. -/
theorem fieldLayoutIsABijection : Obligations.FieldLayoutIsABijection :=
  fun _ _ h => ⟨fldUnpack_fldPack h, fldPack_fldUnpack h⟩

/-- Settles O37: FLDPACK reads each position's bit through the layout; the examples are computed. -/
theorem fldpackPlacesEveryFieldBit : Obligations.FldpackPlacesEveryFieldBit :=
  ⟨fun b s => ⟨fldPack Config.chip b, fldPack_getMsbD b, exec_fldpack b s⟩, by decide +kernel, by decide +kernel⟩

/-- Settles O40: the decoder unpacks the payload through the layout it was packed with. -/
theorem agreeingLayoutHandsOverTheChosenFields : Obligations.AgreeingLayoutHandsOverTheChosenFields := by
  intro N cfg decoder h hagree b p
  calc cfg.decodeParams (fldPack cfg b) p
    _ = decoder (fldUnpack cfg (fldPack cfg b)) p := hagree (fldPack cfg b) p
    _ = decoder b p := by rw [fldUnpack_fldPack h]

/-- Settles O41: the two lists are read off the 49 entries of the reference table. -/
theorem referenceLayoutProtectsTheseBits : Obligations.ReferenceLayoutProtectsTheseBits := by
  unfold Obligations.ReferenceLayoutProtectsTheseBits
  constructor
  · decide
  · decide

end Machine
end Sys2Proof
end

section
/-!
PROOF. A transmission (R152, R205, R206): each SQENC moves `PRED` as a decoder moves that receives its response, so a
sequence of them moves `PRED` as the decoder of all the responses.
-/

namespace Sys2Proof.Machine

variable {N : Type} {cfg : Params N}

/-- The predictor of a decoder that starts from `p` and receives the voice payloads of the responses (R206). -/
def predAfter (cfg : Params N) (p : PredState N) (rs : List Response) : PredState N :=
  (rs.filterMap voiceOfResponse).foldl (fun p v => (cfg.decodeParams v p).2) p

theorem predAfter_cons (p : PredState N) (r : Response) (rs : List Response) :
    predAfter cfg p (r :: rs) = predAfter cfg (predAfter cfg p [r]) rs := by
  simp only [predAfter, ← List.foldl_append, ← List.filterMap_append, List.singleton_append]

theorem predAfter_misuse (p : PredState N) : predAfter cfg p [.misuse] = p := rfl

/-- The response that begins with the payload `v` moves the decoder by `v` (R53). -/
theorem predAfter_ok (p : PredState N) (v : Voice49) (post : List Bool) :
    predAfter cfg p [.ok (Bits.ofVec v ++ post)] = (cfg.decodeParams v p).2 := by
  simp [predAfter, voiceOfResponse]

/-- SQENC moves `PRED` as its one response moves the decoder; a refused frame moves neither (R152). -/
theorem runSqenc_pred {pitch : Nat} {l : BitVec 8} {vuv : List Bool} {mag : List Nat} {s t : StateOf N}
    (h : runSqenc cfg pitch l vuv mag s = .next t) :
    ∃ r, t.responses = s.responses ++ [r] ∧ t.pred = predAfter cfg s.pred [r] := by
  obtain hr | ⟨b, hr⟩ | ⟨f, -, hr⟩ := runSqenc_cases cfg pitch l vuv mag s <;> cases hr.symm.trans h
  · exact ⟨.misuse, StateOf.misuse_responses s, StateOf.misuse_pred s⟩
  · refine ⟨_, StateOf.commitFrame_responses cfg s b, ?_⟩
    rw [StateOf.commitFrame_pred, predAfter_ok]

theorem eq_sqenc_of_opcode {i : Instr} (h : i.opcode = .sqenc) : ∃ pitch l vuv mag, i = .sqenc pitch l vuv mag := by
  cases i with
  | sqenc pitch l vuv mag => exact ⟨pitch, l, vuv, mag, rfl⟩
  | _ => cases h

theorem exec_sqenc_pred {i : Instr} {s t : State} (hi : i.opcode = .sqenc) (h : exec i s = .next t) :
    ∃ r, t.responses = s.responses ++ [r] ∧ t.pred = predAfter Config.chip s.pred [r] := by
  obtain ⟨pitch, l, vuv, mag, rfl⟩ := eq_sqenc_of_opcode hi
  rw [exec_eq_runInstr, onMachine_eq_next] at h
  exact runSqenc_pred h

theorem runCommands_cons_eq_next {i : Instr} {cmds : List Instr} {s u : State}
    (h : runCommands (i :: cmds) s = .next u) : ∃ t, exec i s = .next t ∧ runCommands cmds t = .next u := by
  rw [runCommands] at h
  cases ht : exec i s with
  | next t => exact ⟨t, rfl, by rwa [ht] at h⟩
  | fault f => rw [ht] at h; cases h
  | refused r => rw [ht] at h; cases h

/-- A sequence of SQENC commands moves `PRED` as its responses move the decoder. -/
theorem runCommands_sqenc_pred {cmds : List Instr} (hcmds : ∀ i ∈ cmds, i.opcode = .sqenc) {s u : State}
    (h : runCommands cmds s = .next u) :
    ∃ rs, u.responses = s.responses ++ rs ∧ u.pred = predAfter Config.chip s.pred rs := by
  induction cmds generalizing s with
  | nil => cases h; exact ⟨[], (List.append_nil _).symm, rfl⟩
  | cons i cmds ih =>
    obtain ⟨hi, hrest⟩ := List.forall_mem_cons.mp hcmds
    obtain ⟨t, ht, hu⟩ := runCommands_cons_eq_next h
    obtain ⟨r, hresp, hpred⟩ := exec_sqenc_pred hi ht
    obtain ⟨rs, hresps, hpreds⟩ := ih hrest hu
    exact ⟨r :: rs, by rw [hresps, hresp, List.append_assoc, List.singleton_append],
      by rw [hpreds, hpred, ← predAfter_cons]⟩

/-- Settles O56: SQRST puts `PRED` where the decoder starts, whatever came before, and SQENC commands follow. -/
theorem transmissionTracksTheDecoder : Obligations.TransmissionTracksTheDecoder := by
  intro cmds s t hstart htail h
  obtain ⟨rest, rfl⟩ : ∃ rest, cmds = .sqrst :: rest := List.head?_eq_some_iff.mp hstart
  obtain ⟨u, hu, hrest⟩ := runCommands_cons_eq_next h
  obtain ⟨rs, hresps, hpred⟩ := runCommands_sqenc_pred htail hrest
  cases hu
  exact ⟨rs, hresps.trans (List.append_assoc s.responses [.ok []] rs), hpred⟩

end Sys2Proof.Machine
end

section
/-!
PROOF. Stage 1 (R133, R134, R210). A look at index `i` that is not at a count of `L` steps toward every index that implies
`L`. So the walk never turns round inside the table, which gives the bound of NP steps, and it never leaves the table
while some index implies `L`.
-/

namespace Sys2Proof.Machine

variable {N : Type} {cfg : Params N} {l : Nat}

theorem impliedCount_eq_some_iff {t : OpenTables N} {i : Nat} {a : Int} :
    t.impliedCount i = some a ↔ ∃ b0, t.pitchTable[i]? = some b0 ∧ t.harmCount b0 = a :=
  Option.map_eq_some_iff

theorem lt_length_of_impliedCount {t : OpenTables N} {i : Nat} {a : Int} (h : t.impliedCount i = some a) :
    i < t.pitchTable.length := by
  obtain ⟨b0, hb0, -⟩ := impliedCount_eq_some_iff.mp h
  exact (List.getElem?_eq_some_iff.mp hb0).1

theorem exists_impliedCount {t : OpenTables N} {i : Nat} (h : i < t.pitchTable.length) :
    ∃ a, t.impliedCount i = some a :=
  ⟨_, impliedCount_eq_some_iff.mpr ⟨_, List.getElem?_eq_getElem h, rfl⟩⟩

/-! The step of a look -/

/-- The step of a look that finds the count `a`: by `PITCH_DIR` toward the count `l` (R134). -/
def lookStep (cfg : Params N) (l : Nat) (a : Int) : Int := if a < l then cfg.pitchDir else -cfg.pitchDir

theorem lookStep_eq_one_or (h : PitchTablesWf cfg.lMax cfg.pitchDir cfg.toOpenTables) (a : Int) :
    lookStep cfg l a = 1 ∨ lookStep cfg l a = -1 := by
  have := h.direction
  rw [lookStep]
  split <;> omega

/-- A look at another count steps toward every index that implies `l` (R133: the counts are monotonic). -/
theorem lookStep_toward (h : PitchTablesWf cfg.lMax cfg.pitchDir cfg.toOpenTables) {i k : Nat} {a : Int}
    (hi : cfg.impliedCount i = some a) (ha : a ≠ l) (hk : cfg.impliedCount k = some (l : Int)) :
    (i < k ∧ lookStep cfg l a = 1) ∨ (k < i ∧ lookStep cfg l a = -1) := by
  have hik : i ≤ k → cfg.pitchDir * a ≤ cfg.pitchDir * l := fun hle => h.monotonic i k a l hle hi hk
  have hki : k ≤ i → cfg.pitchDir * l ≤ cfg.pitchDir * a := fun hle => h.monotonic k i l a hle hk hi
  rw [lookStep]
  obtain hd | hd := h.direction <;> rw [hd] at hik hki ⊢ <;> split <;> omega

/-- The next look, if it is at another count again, steps the same way (R133: the counts leave no gap at `l`). -/
theorem lookStep_next (h : PitchTablesWf cfg.lMax cfg.pitchDir cfg.toOpenTables) {i j : Nat} {a b : Int}
    (hi : cfg.impliedCount i = some a) (ha : a ≠ l) (hj : cfg.impliedCount j = some b) (hb : b ≠ l)
    (hij : (j : Int) = i + lookStep cfg l a) : lookStep cfg l b = lookStep cfg l a := by
  by_contra hne
  have hab : (a ≤ l ∧ (l : Int) ≤ b) ∨ (b ≤ l ∧ (l : Int) ≤ a) := by
    simp only [lookStep] at hne
    split at hne <;> split at hne <;> omega
  obtain ⟨k, hk⟩ : ∃ k, cfg.impliedCount k = some (l : Int) := by
    obtain ⟨h1, h2⟩ | ⟨h1, h2⟩ := hab
    · exact h.noGap i j a b l hi hj h1 h2
    · exact h.noGap j i b a l hj hi h1 h2
  have hik := lookStep_toward h hi ha hk
  have hjk := lookStep_toward h hj hb hk
  omega

/-! Walks -/

/-- A walk of R134: each look inside the table at another count than `l` makes its step. -/
def IsPitchWalk (cfg : Params N) (l : Nat) (walk : Nat → Int) : Prop :=
  ∀ n a, 0 ≤ walk n → cfg.impliedCount (walk n).toNat = some a → a ≠ l → walk (n + 1) = walk n + lookStep cfg l a

/-- The look at index `i` does not end the walk: it is inside the table and at another count than `l`. -/
def LooksOn (cfg : Params N) (l : Nat) (i : Int) : Prop :=
  0 ≤ i ∧ ∃ a, cfg.impliedCount i.toNat = some a ∧ a ≠ l

theorem LooksOn.inside {i : Int} (h : LooksOn cfg l i) : 0 ≤ i ∧ i < cfg.pitchTable.length := by
  obtain ⟨h0, a, ha, -⟩ := h
  have := lt_length_of_impliedCount ha
  omega

theorem not_looksOn_iff {i : Int} : ¬ LooksOn cfg l i ↔
    i < 0 ∨ (cfg.pitchTable.length : Int) ≤ i ∨ cfg.impliedCount i.toNat = some (l : Int) := by
  constructor
  · intro h
    by_contra! hout
    obtain ⟨a, ha⟩ := exists_impliedCount (t := cfg.toOpenTables) (i := i.toNat) (by omega)
    exact h ⟨hout.1, a, ha, fun hal => hout.2.2 (hal ▸ ha)⟩
  · rintro hout hon
    have hin := hon.inside
    obtain ⟨-, a, ha, hal⟩ := hon
    obtain hneg | hlen | hl := hout
    · omega
    · omega
    · exact hal (Option.some_injective _ (ha.symm.trans hl))

/-- While it looks on, a walk goes one way, one index a step. -/
theorem IsPitchWalk.eq_add_mul (h : PitchTablesWf cfg.lMax cfg.pitchDir cfg.toOpenTables) {walk : Nat → Int}
    (hw : IsPitchWalk cfg l walk) {n : Nat} (hon : ∀ m ≤ n, LooksOn cfg l (walk m)) :
    ∃ δ a, (δ = 1 ∨ δ = -1) ∧ walk n = walk 0 + n * δ ∧
      cfg.impliedCount (walk n).toNat = some a ∧ a ≠ l ∧ lookStep cfg l a = δ := by
  induction n with
  | zero =>
    obtain ⟨-, a, ha, hal⟩ := hon 0 le_rfl
    exact ⟨_, a, lookStep_eq_one_or h a, by simp, ha, hal, rfl⟩
  | succ n ih =>
    obtain ⟨δ, a, hδ, hn, ha, hal, rfl⟩ := ih fun m hm => hon m (by omega)
    obtain ⟨h0, -⟩ := hon n (by omega)
    obtain ⟨h0', b, hb, hbl⟩ := hon (n + 1) le_rfl
    have hstep := hw n a h0 ha hal
    refine ⟨_, b, hδ, ?_, hb, hbl, lookStep_next h ha hal hb hbl (by omega)⟩
    rw [hstep, hn]
    push_cast
    ring

/-- A walk ends within NP steps (R210). -/
theorem IsPitchWalk.exists_end (h : PitchTablesWf cfg.lMax cfg.pitchDir cfg.toOpenTables) {walk : Nat → Int}
    (hw : IsPitchWalk cfg l walk) :
    ∃ n ≤ cfg.pitchTable.length, ¬ LooksOn cfg l (walk n) ∧ ∀ m < n, LooksOn cfg l (walk m) := by
  classical
  have hends : ∃ n, n ≤ cfg.pitchTable.length ∧ ¬ LooksOn cfg l (walk n) := by
    by_contra! hon
    obtain ⟨δ, -, hδ, hn, -⟩ := hw.eq_add_mul h hon
    have hfirst := (hon 0 (Nat.zero_le _)).inside
    have hlast := (hon cfg.pitchTable.length le_rfl).inside
    obtain rfl | rfl := hδ <;> omega
  obtain ⟨hle, hend⟩ := Nat.find_spec hends
  exact ⟨_, hle, hend, fun m hm => by_contra fun hm' => Nat.find_min hends hm ⟨by omega, hm'⟩⟩

/-! The loop of the model -/

theorem pitchSearch_of_looksOn {b : Nat} {i a : Int} (h0 : 0 ≤ i) (ha : cfg.impliedCount i.toNat = some a)
    (hal : a ≠ l) : pitchSearch cfg l (b + 1) i = pitchSearch cfg l b (i + lookStep cfg l a) := by
  obtain ⟨b0, hb0, rfl⟩ := impliedCount_eq_some_iff.mp ha
  simp only [pitchSearch, if_neg (not_lt.mpr h0), hb0, if_neg hal, lookStep]
  split
  · rfl
  · rw [sub_eq_add_neg]

theorem pitchSearch_of_not_looksOn {b : Nat} {i : Int} (h : ¬ LooksOn cfg l i) :
    pitchSearch cfg l (b + 1) i = if 0 ≤ i then cfg.pitchTable[i.toNat]? else none := by
  rw [pitchSearch]
  obtain hneg | h0 := lt_or_ge i 0
  · rw [if_pos hneg, if_neg (not_le.mpr hneg)]
  · rw [if_neg (not_lt.mpr h0), if_pos h0]
    cases hb0 : cfg.pitchTable[i.toNat]? with
    | none => rfl
    | some b0 =>
      have hl : cfg.harmCount b0 = l := by
        by_contra hne
        exact h ⟨h0, _, impliedCount_eq_some_iff.mpr ⟨b0, hb0, rfl⟩, hne⟩
      simp only [hl, if_true]

/-- With budget to spare the loop answers the table value where the walk ends. -/
theorem pitchSearch_of_walk {walk : Nat → Int} (hw : IsPitchWalk cfg l walk) {n b : Nat} (hb : n < b)
    (hon : ∀ m < n, LooksOn cfg l (walk m)) (hend : ¬ LooksOn cfg l (walk n)) :
    pitchSearch cfg l b (walk 0) = if 0 ≤ walk n then cfg.pitchTable[(walk n).toNat]? else none := by
  obtain ⟨b, rfl⟩ : ∃ c, b = c + 1 := ⟨b - 1, by omega⟩
  induction n generalizing walk b with
  | zero => exact pitchSearch_of_not_looksOn hend
  | succ n ih =>
    obtain ⟨h0, a, ha, hal⟩ := hon 0 (by omega)
    obtain ⟨b, rfl⟩ : ∃ c, b = c + 1 := ⟨b - 1, by omega⟩
    rw [pitchSearch_of_looksOn h0 ha hal, ← hw 0 a h0 ha hal]
    exact ih (walk := fun m => walk (m + 1)) (fun m => hw (m + 1)) (fun m hm => hon (m + 1) (by omega)) hend b (by omega)

/-- The walk from an index; it stands still where it has ended. -/
def pitchWalk (cfg : Params N) (l : Nat) (start : Int) : Nat → Int
  | 0 => start
  | n + 1 =>
    let i := pitchWalk cfg l start n
    i + ((cfg.impliedCount i.toNat).map (lookStep cfg l)).getD 0

theorem isPitchWalk_pitchWalk (start : Int) : IsPitchWalk cfg l (pitchWalk cfg l start) := by
  intro n a _ ha _
  rw [pitchWalk, ha]
  rfl

/-- What the loop answers is a table value that implies `l`. -/
theorem pitchSearch_eq_some {b : Nat} {i : Int} {b0 : BitVec 7} (h : pitchSearch cfg l b i = some b0) :
    b0 ∈ cfg.pitchTable ∧ cfg.harmCount b0 = l := by
  induction b generalizing i with
  | zero => cases h
  | succ b ih =>
    by_cases hon : LooksOn cfg l i
    · obtain ⟨h0, a, ha, hal⟩ := hon
      rw [pitchSearch_of_looksOn h0 ha hal] at h
      exact ih h
    · rw [pitchSearch_of_not_looksOn hon] at h
      obtain ⟨h0, hb0⟩ := Option.ite_none_right_eq_some.mp h
      refine ⟨List.mem_of_getElem? hb0, ?_⟩
      obtain hneg | hlen | hl := not_looksOn_iff.mp hon
      · omega
      · rw [List.getElem?_eq_none (by omega)] at hb0
        cases hb0
      · obtain ⟨b1, hb1, hcount⟩ := impliedCount_eq_some_iff.mp hl
        cases hb0.symm.trans hb1
        exact hcount

/-- A walk that starts inside the table does not leave it while some index implies `l`. -/
theorem IsPitchWalk.end_inside (h : PitchTablesWf cfg.lMax cfg.pitchDir cfg.toOpenTables) {walk : Nat → Int}
    (hw : IsPitchWalk cfg l walk) {k n : Nat} (hk : cfg.impliedCount k = some (l : Int))
    (hon : ∀ m < n, LooksOn cfg l (walk m)) (h0 : 0 ≤ walk 0) (h1 : walk 0 < cfg.pitchTable.length) :
    0 ≤ walk n ∧ walk n < cfg.pitchTable.length := by
  cases n with
  | zero => exact ⟨h0, h1⟩
  | succ n =>
    obtain ⟨hn, a, ha, hal⟩ := hon n (by omega)
    have hstep := hw n a hn ha hal
    have htoward := lookStep_toward h ha hal hk
    have := lt_length_of_impliedCount ha
    have := lt_length_of_impliedCount hk
    omega

/-! Stage 1 -/

theorem stage1_eq_some {pitch : Nat} {b0 : BitVec 7} (h : stage1 cfg pitch l = some b0) :
    b0 ∈ cfg.pitchTable ∧ cfg.harmCount b0 = l :=
  pitchSearch_eq_some h

/-- Stage 1 aborts a count that no index implies. -/
theorem stage1_eq_none (h : ∀ i, cfg.impliedCount i ≠ some (l : Int)) (pitch : Nat) :
    stage1 cfg pitch l = none := by
  refine Option.eq_none_iff_forall_ne_some.mpr fun b0 hb0 => ?_
  obtain ⟨hmem, hcount⟩ := stage1_eq_some hb0
  obtain ⟨i, hi⟩ := List.getElem?_of_mem hmem
  exact h i (impliedCount_eq_some_iff.mpr ⟨b0, hi, hcount⟩)

/-- Stage 1 answers the table value where a walk from the starting index ends. -/
theorem stage1_of_walk {walk : Nat → Int} (hw : IsPitchWalk cfg l walk) {pitch n : Nat}
    (hstart : walk 0 = cfg.pitchIndex0 pitch) (hn : n ≤ cfg.pitchTable.length) (hon : ∀ m < n, LooksOn cfg l (walk m))
    (hend : ¬ LooksOn cfg l (walk n)) :
    stage1 cfg pitch l = if 0 ≤ walk n then cfg.pitchTable[(walk n).toNat]? else none := by
  rw [stage1, ← hstart]
  exact pitchSearch_of_walk hw (by omega) hon hend

theorem stage1_eq_none_iff (h : PitchTablesWf cfg.lMax cfg.pitchDir cfg.toOpenTables) (pitch l : Nat) :
    stage1 cfg pitch l = none ↔
      cfg.pitchIndex0 pitch < 0 ∨ (cfg.pitchTable.length : Int) ≤ cfg.pitchIndex0 pitch ∨
        ∀ i, cfg.impliedCount i ≠ some (l : Int) := by
  have hw : IsPitchWalk cfg l (pitchWalk cfg l (cfg.pitchIndex0 pitch)) := isPitchWalk_pitchWalk _
  obtain ⟨n, hn, hend, hon⟩ := hw.exists_end h
  have hstage := stage1_of_walk hw rfl hn hon hend
  constructor
  · intro hnone
    by_contra! hin
    obtain ⟨h0, h1, k, hk⟩ := hin
    obtain ⟨hn0, hn1⟩ := hw.end_inside h hk hon h0 h1
    rw [hstage, if_pos hn0, List.getElem?_eq_none_iff] at hnone
    omega
  · rintro (hneg | hlen | hno)
    · exact (pitchSearch_of_not_looksOn (not_looksOn_iff.mpr (.inl hneg))).trans (if_neg (not_le.mpr hneg))
    · refine (pitchSearch_of_not_looksOn (not_looksOn_iff.mpr (.inr (.inl hlen)))).trans ?_
      rw [if_pos (by omega), List.getElem?_eq_none (by omega)]
    · exact stage1_eq_none hno pitch

/-- Settles O44: what the loop answers, and the end of the walk it takes. -/
theorem pitchSearchFindsTheCountOrAborts : Obligations.PitchSearchFindsTheCountOrAborts :=
  fun _ _ h pitch l => ⟨fun _ => stage1_eq_some, stage1_eq_none_iff h pitch l⟩

/-- Settles O45: every walk ends within NP steps, which the budget of stage 1 and every larger one cover. -/
theorem pitchSearchNeverUsesUpItsBudget : Obligations.PitchSearchNeverUsesUpItsBudget := by
  refine fun N cfg h pitch l => ⟨fun walk hstart hstep => ?_, fun extra => ?_⟩
  · have hw : IsPitchWalk cfg l walk := fun n a h0 ha hal => by
      rw [hstep n a h0 ha hal, lookStep, apply_ite (walk n + ·), sub_eq_add_neg]
    obtain ⟨n, hn, hend, hon⟩ := hw.exists_end h
    exact ⟨n, hn, not_looksOn_iff.mp hend, hon, stage1_of_walk hw hstart hn hon hend⟩
  · have hw : IsPitchWalk cfg l (pitchWalk cfg l (cfg.pitchIndex0 pitch)) := isPitchWalk_pitchWalk _
    obtain ⟨n, hn, hend, hon⟩ := hw.exists_end h
    rw [stage1_of_walk hw rfl hn hon hend]
    exact pitchSearch_of_walk hw (by omega) hon hend

end Sys2Proof.Machine
end

section
/-!
PROOF. Stages 3 and 5 (R137, R141), the fields that stages 1 to 8 make up (R147, R150, R151), and SQENC on the machine for
every predictor.
-/

namespace Sys2Proof.Machine

variable {N : Type} {cfg : Params N}

/-! Stage 3 (R137) -/

theorem F32.max_eq_right {x y : Num32} (h : F32.lt x y = true) : F32.max x y = y := if_pos h

theorem F32.max_self (x : Num32) : F32.max x x = x := ite_self x

/-- Stage 3 reads the magnitude of a harmonic through its maximum with 1. -/
theorem stage3_congr {l : Nat} {f0 : N} {voiced : Bool} {m m' : N}
    (h : cfg.num.max m (cfg.num.ofInt 1) = cfg.num.max m' (cfg.num.ofInt 1)) :
    stage3 cfg l f0 [(voiced, m)] = stage3 cfg l f0 [(voiced, m')] := by
  simp only [stage3, List.map_cons, h, List.map_nil]

/-- Settles O46: stage 3 maps the harmonics; below 1 the maximum with 1 is 1, which is also its maximum with itself. -/
theorem smallMagnitudesCountAsOne : Obligations.SmallMagnitudesCountAsOne := by
  refine ⟨fun N cfg l f0 hs => ⟨List.length_map _, fun j voiced m hj => ?_⟩, fun l f0 m voiced hm => ?_⟩
  · rw [stage3, List.getElem?_map, hj, Option.map_some]
    cases voiced <;> rfl
  · have hmax : F32.max m (F32.ofInt 1) = F32.ofInt 1 := F32.max_eq_right hm
    exact ⟨hmax, stage3_congr (cfg := Config.chip) (hmax.trans (F32.max_self (F32.ofInt 1)).symm)⟩

/-! Stage 5 (R141) -/

/-- Reads that all succeed are those of the list. -/
theorem eq_map_some_of_allSome {α : Type} {os : List (Option α)} {xs : List α} (h : allSome os = some xs) :
    os = xs.map some := by
  induction os generalizing xs with
  | nil => cases h; rfl
  | cons o os ih =>
    cases o with
    | none => cases h
    | some x =>
      obtain ⟨ys, hys, rfl⟩ := Option.map_eq_some_iff.mp h
      rw [ih hys, List.map_cons]

/-- A read that succeeds is at a floor in 0..L_MAX: it reads the envelope there (index 1 for index 0, D22) and after. -/
theorem env_of_envRead_eq_some {p : PredState N} {ratio : N} {h : Nat} {r : EnvRead N}
    (hr : envRead cfg p ratio h = some r) :
    let k := cfg.num.mul ratio (cfg.num.ofInt h)
    let kf := cfg.num.floor k
    0 ≤ kf ∧ kf ≤ cfg.lMax ∧ p.env[if kf = 0 then 1 else kf.toNat]? = some r.lo ∧
      p.env[kf.toNat + 1]? = some r.hi ∧ r.fr = cfg.num.sub k (cfg.num.ofInt kf) := by
  intro k kf
  rw [envRead] at hr
  split at hr
  case h_2 => cases hr
  case h_1 lo hi hlo hhi =>
    cases hr
    obtain ⟨⟨h0, -⟩, hlo⟩ := Option.ite_none_right_eq_some.mp hlo
    obtain ⟨⟨-, h1⟩, hhi⟩ := Option.ite_none_right_eq_some.mp hhi
    have hkf : 0 ≤ kf := h0
    have hkf' : kf + 1 ≤ cfg.lMax + 1 := h1
    rw [if_neg (show ¬ kf + 1 = 0 by omega), show (kf + 1).toNat = kf.toNat + 1 by omega] at hhi
    exact ⟨hkf, by omega, hlo, hhi, rfl⟩

/-- What stage 5 reads, if it can, is one read for each harmonic (R141). -/
theorem map_some_of_envWindow_eq_ok {p : PredState N} {l : Nat} {w : List (EnvRead N)} (h : envWindow cfg p l = .ok w) :
    w.map some = (List.range l).map fun j =>
      envRead cfg p (cfg.num.div (cfg.num.ofInt p.l) (cfg.num.ofInt l)) (j + 1) := by
  simp only [envWindow] at h
  split at h
  case isTrue hl => cases h; subst hl; rfl
  case isFalse =>
    split at h
    case isTrue => cases h
    case isFalse =>
      split at h
      case h_1 w' hw => cases h; exact (eq_map_some_of_allSome hw).symm
      case h_2 => cases h

theorem length_of_envWindow_eq_ok {p : PredState N} {l : Nat} {w : List (EnvRead N)} (h : envWindow cfg p l = .ok w) :
    w.length = l := by
  simpa using congrArg List.length (map_some_of_envWindow_eq_ok h)

/-- The read of harmonic j + 1. -/
theorem exists_envRead_of_envWindow_eq_ok {p : PredState N} {l : Nat} {w : List (EnvRead N)}
    (h : envWindow cfg p l = .ok w) {j : Nat} (hj : j < l) : ∃ r, w[j]? = some r ∧
      envRead cfg p (cfg.num.div (cfg.num.ofInt p.l) (cfg.num.ofInt l)) (j + 1) = some r := by
  have hlen := length_of_envWindow_eq_ok h
  have hread := congrArg (·[j]?) (map_some_of_envWindow_eq_ok h)
  simp only [List.getElem?_map, List.getElem?_range hj, List.getElem?_eq_getElem (hlen ▸ hj : j < w.length),
    Option.map_some, Option.some.injEq] at hread
  exact ⟨w[j], List.getElem?_eq_getElem _, hread.symm⟩

/-- Settles O47: stage 5 combines each value with its read; in the reference numerics every read is in range. -/
theorem envelopeReadsStayInRange : Obligations.EnvelopeReadsStayInRange := by
  refine ⟨fun N cfg p l lsa w hw hlsa => ⟨?_, fun j hj => ?_⟩, fun p l hp hl => ?_⟩
  · rw [stage5, List.length_zipWith, hlsa, length_of_envWindow_eq_ok hw, min_self]
  · obtain ⟨r, hwj, hr⟩ := exists_envRead_of_envWindow_eq_ok hw hj
    obtain ⟨h0, h1, hlo, hhi, hfr⟩ := env_of_envRead_eq_some hr
    have hx : lsa[j]? = some lsa[j] := List.getElem?_eq_getElem (hlsa ▸ hj)
    refine ⟨h0, h1, _, _, _, hx, hlo, hhi, ?_⟩
    rw [stage5, List.getElem?_zipWith, hx, hwj, ← hfr]
    rfl
  · obtain ⟨w, hw⟩ := envWindow_eq_ok chip_floorPremise (cfg := Config.chip) hp hl
    exact ⟨w, hw, length_of_envWindow_eq_ok hw⟩

/-! The fields of stages 1 to 8 (R150) -/

section Fields

variable {frame : VoiceFrame N} (w : List (EnvRead N)) (gamma gadj : N)

theorem sqFields_of_aborted (h : stage1 cfg frame.pitch frame.l = none) :
    sqFields cfg frame w gamma gadj = abortFields cfg := by
  rw [sqFields, h]

theorem sqFields_of_found {b0 : BitVec 7} (h : stage1 cfg frame.pitch frame.l = some b0) :
    sqFields cfg frame w gamma gadj = quantize cfg frame b0 w gamma gadj := by
  rw [sqFields, h]

end Fields

/-- A field wide enough for the indices of its search holds the index. -/
theorem toNat_ofNat_index {n k : Nat} (h : k ≤ 2 ^ n) (i : Fin k) : (BitVec.ofNat n i).toNat = i :=
  (BitVec.toNat_ofNat ..).trans (Nat.mod_eq_of_lt (i.isLt.trans_le h))

/-- Settles O50: the fields are the abort output, or those of stage 1's table value. -/
theorem fieldsStayInRange : Obligations.FieldsStayInRange := by
  intro N cfg frame win gamma gadj
  cases h : stage1 cfg frame.pitch frame.l with
  | none =>
    rw [sqFields_of_aborted win gamma gadj h]
    exact ⟨.inr rfl, Nat.zero_le 16⟩
  | some b0 =>
    rw [sqFields_of_found win gamma gadj h]
    obtain ⟨hmem, -⟩ := stage1_eq_some h
    refine ⟨.inl hmem, ?_⟩
    rw [quantize, toNat_ofNat_index (by decide)]
    exact Fin.is_le _

/-- Settles O51: an accepted frame is committed, and its fields are those of the stages. -/
theorem sqencCompletesAndReplacesPred : Obligations.SqencCompletesAndReplacesPred := by
  refine ⟨fun pitch l vuv mag s hp hl hmag => ?_, fun N cfg frame w gamma gadj => ⟨fun h => ?_, fun b0 h => ?_⟩⟩
  · obtain ⟨w, hw, hexec⟩ := exec_sqenc_accepted (pitch := pitch) (vuv := vuv) hp hl hmag
    exact ⟨w, _, hw, rfl, hexec⟩
  · exact sqFields_of_aborted w gamma gadj h
  · rw [sqFields_of_found w gamma gadj h]
    exact ⟨rfl, toNat_ofNat_index (by decide) _, toNat_ofNat_index (by decide) _, toNat_ofNat_index (by decide) _,
      toNat_ofNat_index (by decide) _, toNat_ofNat_index (by decide) _, toNat_ofNat_index (by decide) _,
      toNat_ofNat_index (by decide) _, toNat_ofNat_index (by decide) _⟩

/-! SQENC on the machine: aborts and stops -/

theorem exec_sqenc_aborted {pitch : Nat} {l : BitVec 8} {vuv : List Bool} {mag : List Nat} {s : State}
    (h1 : stage1 Config.chip pitch l.toNat = none) (hl : l.toNat ≤ 56)
    (hmag : ∀ m ∈ mag.take l.toNat, F32.finite (BitVec.ofNat 32 m) = true) :
    exec (.sqenc pitch l vuv mag) s = .next ⟨s.toStateOf.commitFrame Config.chip (abortFields Config.chip)⟩ := by
  rw [exec_eq_runInstr]
  exact congrArg onMachine (runSqenc_aborted (frameAccepted_chip_iff.mpr ⟨hl, hmag⟩) h1)

/-- Settles O52: the abort output is committed; no table entry implies 0 or less than `L_MIN`. -/
theorem sqencAbortsWithTheSilenceFields : Obligations.SqencAbortsWithTheSilenceFields := by
  refine ⟨fun pitch l vuv mag s h1 hl hmag => ⟨_, rfl, exec_sqenc_aborted h1 hl hmag⟩,
    stage1_eq_none fun i hi => ?_, fun pitch l hl => stage1_eq_none (fun i hi => ?_) pitch⟩
  · have := chip_impliedCount_bounds i _ hi
    omega
  · have := chip_lMin_le_impliedCount i _ hi
    omega

/-- A frame with a harmonic cannot be read with `PRED.L` out of range (U9). -/
theorem envWindow_of_pred_out_of_range {p : PredState N} (hp : p.l < 0 ∨ (cfg.lMax : Int) < p.l) {l : Nat}
    (hl : 1 ≤ l) : envWindow cfg p l = .error .predictorRange := by
  rw [envWindow, if_neg (by omega), if_pos hp]

/-- Settles O55: an accepted frame is aborted by stage 1, or comes to the reads of stage 5. -/
theorem sqencStopsOnAnUnreadablePredictor : Obligations.SqencStopsOnAnUnreadablePredictor := by
  intro pitch l vuv mag s hp hl1 hl hmag
  cases h1 : stage1 Config.chip pitch l.toNat with
  | none => exact exec_sqenc_aborted h1 hl hmag
  | some b0 =>
    have hw : envWindow Config.chip s.pred l.toNat = .error .predictorRange := envWindow_of_pred_out_of_range hp hl1
    rw [exec_eq_runInstr]
    exact congrArg onMachine (runSqenc_stops (frameAccepted_chip_iff.mpr ⟨hl, hmag⟩) hw h1)

end Sys2Proof.Machine
end

section
/-!
PROOF. The reference numerics on small integers and on not-a-number words (R171): a word with its sign bit set stands for
the opposite value, so an integer of either sign is exact where its magnitude is.
-/

namespace Sys2Proof.Machine.F32

/-! The sign bit -/

theorem toNat_lt_of_not_neg {x : Num32} (h : neg x = false) : x.toNat < 2 ^ 31 :=
  Nat.not_le.mp (of_decide_eq_false ((BitVec.msb_eq_decide x).symm.trans h))

theorem toNat_signBit_or {x : Num32} (h : neg x = false) : (signBit true ||| x).toNat = 2 ^ 31 + x.toNat :=
  (Nat.two_pow_add_eq_or_of_lt (toNat_lt_of_not_neg h) 1).symm

theorem neg_signBit_or (x : Num32) : neg (signBit true ||| x) = true := by
  simp [neg, signBit]

theorem expField_signBit_or {x : Num32} (h : neg x = false) : expField (signBit true ||| x) = expField x := by
  rw [expField, expField, toNat_signBit_or h]
  omega

theorem fracField_signBit_or {x : Num32} (h : neg x = false) : fracField (signBit true ||| x) = fracField x := by
  rw [fracField, fracField, toNat_signBit_or h]
  omega

/-- The sign bit turns a finite word into one of the opposite value. -/
theorem value_signBit_or {x : Num32} (h : IsNonneg x) :
    finite (signBit true ||| x) = true ∧ value (signBit true ||| x) = -value x := by
  obtain ⟨hfin, hneg⟩ := h
  have hexp := expField_signBit_or hneg
  constructor
  · rwa [finite, hexp]
  · have hmant : mant (signBit true ||| x) = mant x := by rw [mant, mant, hexp, fracField_signBit_or hneg]
    have hexpo : expo (signBit true ||| x) = expo x := by rw [expo, expo, hexp]
    simp [value, signedMant, neg_signBit_or, hneg, hmant, hexpo]

/-- Rounding treats the sign apart from the magnitude. -/
theorem round_eq_signBit_or (n : Bool) (m : Nat) (e : Int) : round n m e = signBit n ||| round false m e := by
  simp only [round, apply_ite (signBit n ||| ·)]
  simp [zero, inf, signBit]

/-! Integers of either sign -/

theorem ofInt_eq_signBit_or (i : Int) : ofInt i = signBit (i < 0) ||| ofInt i.natAbs := by
  have hmag : ofInt i.natAbs = round false i.natAbs 0 := by
    rw [ofInt, Int.natAbs_natCast, decide_eq_false (by omega)]
  rw [hmag]
  exact round_eq_signBit_or _ _ _

/-- An integer of magnitude below 2^24 is exact, whatever its sign (R171). -/
theorem value_ofInt_of_natAbs_lt {i : Int} (hi : i.natAbs < 2 ^ 24) :
    finite (ofInt i) = true ∧ value (ofInt i) = i := by
  obtain ⟨hnn, hv⟩ := value_ofInt hi
  obtain h0 | h0 := lt_or_ge i 0
  · obtain ⟨hfin, hval⟩ := value_signBit_or hnn
    rw [ofInt_eq_signBit_or, decide_eq_true h0]
    exact ⟨hfin, by rw [hval, hv, Nat.cast_natAbs, abs_of_neg h0, Int.cast_neg, neg_neg]⟩
  · lift i to ℕ using h0
    exact ⟨hnn.1, hv⟩

/-- A value that is an integer, said over the integers: the two powers clear the denominator. -/
theorem signedMant_mul_eq_of_value_eq {x : Num32} {i : Int} (h : value x = i) :
    signedMant x * 2 ^ (expo x).toNat = i * 2 ^ (-expo x).toNat := by
  have hpow : (2 : ℚ) ^ (expo x).toNat = 2 ^ expo x * 2 ^ (-expo x).toNat := by
    rw [← zpow_natCast, ← zpow_natCast, ← zpow_add₀ two_ne_zero]
    congr 1
    omega
  have hrat : (signedMant x : ℚ) * 2 ^ (expo x).toNat = i * 2 ^ (-expo x).toNat := by
    rw [hpow, ← mul_assoc, ← value, h]
  exact_mod_cast hrat

theorem lt_eq_false_of_isNan {x y : Num32} (h : isNan x = true ∨ isNan y = true) : lt x y = false := by
  obtain h | h := h <;> simp [lt, h]

end Sys2Proof.Machine.F32

namespace Sys2Proof.Machine

/-- Settles O43: the integers of magnitude up to 112 lie far below 2^24, where `ofInt` is exact. -/
theorem numericsOfSmallIntegersAndNan : Obligations.NumericsOfSmallIntegersAndNan := by
  refine ⟨fun x y => F32.lt_eq_false_of_isNan, fun i hlo hhi => ?_⟩
  obtain ⟨hfin, hval⟩ := F32.value_ofInt_of_natAbs_lt (i := i) (by omega)
  refine ⟨hfin, F32.signedMant_mul_eq_of_value_eq hval, ?_⟩
  rw [F32.floor_eq_floor_value hfin, hval, Int.floor_intCast]

end Sys2Proof.Machine
end


section
/-!
PROOF. The step of an idle core, of a reset and of a refused request (R182, R189, R193, R200, R202), and the two resets
compared (R201): whatever two states that agree on `PRED` and `GADJ` are asked, they answer alike.
-/

namespace Sys2Proof.Machine

section Step

variable {N : Type} {cfg : Params N}

/-! A step, by what waits at the head of the inputs -/

theorem stepOf_of_idle {s : StateOf N} (hs : s.inputs = []) : stepOf cfg s = .next s := by
  rw [stepOf, hs]

theorem stepOf_of_request {s : StateOf N} {req : List Bool} {rest : List HostInput}
    (hs : s.inputs = .request req :: rest) : stepOf cfg s = requestOf cfg req (s.takeInput rest) := by
  rw [stepOf, hs]

/-- An input that is no request is a power-on reset, between commands or during one (R200, R202). -/
theorem stepOf_of_not_request {s : StateOf N} {i : HostInput} {rest : List HostInput} (hs : s.inputs = i :: rest)
    (hi : ∀ req, i ≠ .request req) : stepOf cfg s = .next ((s.takeInput rest).powerOn cfg) := by
  cases i with
  | request req => exact absurd rfl (hi req)
  | powerOnReset => rw [stepOf, hs]
  | requestCutByReset req => rw [stepOf, hs]

/-! Two states that agree -/

/-- A request is answered alike in two states that agree on `PRED` and `GADJ`: its command is, and so is a refusal. -/
theorem requestOf_of_agree {s₁ s₂ t₁ : StateOf N} (hp : s₁.pred = s₂.pred) (hg : s₁.gadj = s₂.gadj) {req : List Bool}
    (h : requestOf cfg req s₁ = .next t₁) :
    ∃ p g r, t₁ = ((s₁.setPred p).setGadj g).deliver r ∧
      requestOf cfg req s₂ = .next (((s₂.setPred p).setGadj g).deliver r) := by
  revert h
  unfold requestOf
  cases decode cfg.widths req with
  | ok i => exact runInstr_of_agree hp hg
  | error e => rintro ⟨⟩; exact ⟨s₁.pred, s₁.gadj, .misuse, rfl, by rw [hp, hg]; rfl⟩

/-- Two states that agree on all but the responses delivered so far take the same step (R10). -/
theorem stepOf_of_agree {s₁ s₂ t₁ : StateOf N} (hp : s₁.pred = s₂.pred) (hg : s₁.gadj = s₂.gadj)
    (hin : s₁.inputs = s₂.inputs) (h : stepOf cfg s₁ = .next t₁) :
    ∃ t₂ rs, stepOf cfg s₂ = .next t₂ ∧ t₂.pred = t₁.pred ∧ t₂.gadj = t₁.gadj ∧ t₂.inputs = t₁.inputs ∧
      t₁.responses = s₁.responses ++ rs ∧ t₂.responses = s₂.responses ++ rs := by
  obtain ⟨hs, hstep⟩ | ⟨req, rest, hs, hstep⟩ | ⟨i, rest, hs, hi, hstep⟩ := stepOf_cases cfg s₁ <;>
    rw [hstep] at h <;> rw [hin] at hs
  · cases h
    exact ⟨s₂, [], stepOf_of_idle hs, hp.symm, hg.symm, hin.symm, (List.append_nil _).symm, (List.append_nil _).symm⟩
  · obtain ⟨p, g, r, rfl, h₂⟩ := requestOf_of_agree (s₁ := s₁.takeInput rest) (s₂ := s₂.takeInput rest) hp hg h
    exact ⟨_, [r], (stepOf_of_request hs).trans h₂, rfl, rfl, rfl, rfl, rfl⟩
  · cases h
    exact ⟨_, [], stepOf_of_not_request hs hi, rfl, rfl, rfl, (List.append_nil _).symm, (List.append_nil _).symm⟩

/-! A refused request -/

theorem append_ok_ne_append_misuse (rs : List Response) (payload : List Bool) :
    rs ++ [.ok payload] ≠ rs ++ [.misuse] := by
  simp

/-- A command that answers MISUSE does nothing else (R182): only SQENC and SQGAIN can, by their checks. -/
theorem runInstr_eq_misuse {i : Instr} {s t : StateOf N} (h : runInstr cfg i s = .next t)
    (hr : t.responses = s.responses ++ [.misuse]) : t = s.misuse := by
  obtain ⟨payload, hi⟩ | ⟨pitch, l, vuv, mag, rfl⟩ | rfl | ⟨db, rfl⟩ := runInstr_stateless_or_quantizer cfg i
  · cases (hi s).symm.trans h
    exact absurd hr (append_ok_ne_append_misuse _ _)
  · obtain hrun | ⟨b, hrun⟩ | ⟨f, -, hrun⟩ := runSqenc_cases cfg pitch l vuv mag s <;> cases hrun.symm.trans h
    · rfl
    · exact absurd hr (append_ok_ne_append_misuse _ _)
  · cases h
    exact absurd hr (append_ok_ne_append_misuse _ _)
  · obtain ⟨-, hrun⟩ | ⟨-, hrun⟩ := runSqgain_cases cfg db s <;> cases hrun.symm.trans h
    · exact absurd hr (append_ok_ne_append_misuse _ _)
    · rfl

/-- So does a request, whatever the cause of its refusal. -/
theorem requestOf_eq_misuse {req : List Bool} {s t : StateOf N} (h : requestOf cfg req s = .next t)
    (hr : t.responses = s.responses ++ [.misuse]) : t = s.misuse := by
  obtain ⟨i, -, hreq⟩ | ⟨e, -, hreq⟩ := requestOf_cases cfg req s
  · exact runInstr_eq_misuse (hreq.symm.trans h) hr
  · cases hreq.symm.trans h
    rfl

end Step

/-! Steps of the machine -/

/-- Settles O6: the step at no input. -/
theorem idleCoreHoldsItsState : Obligations.IdleCoreHoldsItsState := by
  intro s hs
  rw [step_eq_stepOf, stepOf_of_idle hs, onMachine_next]

/-- Settles O13: neither input is a request. -/
theorem powerOnResetEndsTheCommand : Obligations.PowerOnResetEndsTheCommand := by
  intro s i rest hs hi
  have hreset : ∀ req, i ≠ .request req := by
    obtain rfl | ⟨bits, rfl⟩ := hi <;> exact fun _ => HostInput.noConfusion
  rw [step_eq_stepOf, stepOf_of_not_request hs hreset]
  rfl

/-- Settles O8: the state after the refusal differs from the one before it in the responses alone, which no step reads. -/
theorem refusedRequestLeavesNoTrace : Obligations.RefusedRequestLeavesNoTrace := by
  refine ⟨rfl, fun s t req rest hs ht hresp => ?_⟩
  rw [step_eq_stepOf, onMachine_eq_next, stepOf_of_request hs] at ht
  obtain rfl : t = ⟨(s.toStateOf.takeInput rest).misuse⟩ := congrArg State.mk (requestOf_eq_misuse ht hresp)
  refine ⟨rfl, rfl, rfl, fun u hu => ?_⟩
  rw [step_eq_stepOf, onMachine_eq_next] at hu
  obtain ⟨u', rs, hu', hp, hg, hin, hr, hr'⟩ :=
    stepOf_of_agree (s₁ := s.toStateOf.takeInput rest) (s₂ := (s.toStateOf.takeInput rest).misuse) rfl rfl rfl hu
  refine ⟨⟨u'⟩, rs, by rw [step_eq_stepOf, hu', onMachine_next], hp, hg, hin, hr, ?_⟩
  exact hr'.trans (List.append_assoc s.responses [.misuse] rs)

/-! The two resets (R201) -/

theorem runCommands_cons {i : Instr} {s t : State} (h : exec i s = .next t) (cmds : List Instr) :
    runCommands (i :: cmds) s = runCommands cmds t := by
  rw [runCommands, h]

/-- Two states that agree on `PRED` and `GADJ` answer every command sequence alike (R10). -/
theorem runCommands_of_agree {cmds : List Instr} {s₁ s₂ t₁ : State} (hp : s₁.pred = s₂.pred) (hg : s₁.gadj = s₂.gadj)
    (h : runCommands cmds s₁ = .next t₁) :
    ∃ t₂ rs, runCommands cmds s₂ = .next t₂ ∧
      t₁.responses = s₁.responses ++ rs ∧ t₂.responses = s₂.responses ++ rs := by
  induction cmds generalizing s₁ s₂ with
  | nil => cases h; exact ⟨s₂, [], rfl, (List.append_nil _).symm, (List.append_nil _).symm⟩
  | cons i cmds ih =>
    obtain ⟨u₁, hu₁, hrest⟩ := runCommands_cons_eq_next h
    obtain ⟨r, u₂, hu₂, hpu, hgu, hr₁, hr₂, -, -⟩ := outcomeDependsOnPredAndGadjAlone i s₁ s₂ u₁ hp hg hu₁
    obtain ⟨t₂, rs, ht₂, hrs₁, hrs₂⟩ := ih hpu.symm hgu.symm hrest
    refine ⟨t₂, r :: rs, (runCommands_cons hu₂ cmds).trans ht₂, ?_, ?_⟩
    · rw [hrs₁, hr₁, List.append_assoc, List.singleton_append]
    · rw [hrs₂, hr₂, List.append_assoc, List.singleton_append]

theorem exec_sqgain_accepted {g : Nat} (hg : F32.finite (BitVec.ofNat 32 g) = true) (s : State) :
    exec (.sqgain g) s =
      .next ⟨(s.toStateOf.setGadj (gainOfDb F32.numerics (BitVec.ofNat 32 g))).respond []⟩ := by
  rw [exec_eq_runInstr]
  exact congrArg onMachine (runSqgain_accepted (cfg := Config.chip) hg s.toStateOf)

theorem exec_sqrst (s : State) : exec .sqrst s = .next ⟨(s.toStateOf.setPred Config.chip.predReset).respond []⟩ := rfl

/-- Settles O59: after power-on and SQGAIN, and after either ending, `PRED` is `PRED_RESET` and `GADJ` the gain of `g`. -/
theorem resetsAreObservationallyEqual : Obligations.ResetsAreObservationallyEqual := by
  intro g s ending hfinite hending
  have hgain := exec_sqgain_accepted hfinite
  have hreset := runCommands_cons (hgain State.reset) []
  obtain rfl | rfl := hending
  · exact ⟨_, _, hreset, (runCommands_cons (hgain s) _).trans (runCommands_cons (exec_sqrst _) []),
      fun S a' => runCommands_of_agree rfl rfl⟩
  · exact ⟨_, _, hreset, (runCommands_cons (exec_sqrst s) _).trans (runCommands_cons (hgain _) []),
      fun S a' => runCommands_of_agree rfl rfl⟩

end Sys2Proof.Machine
end
